-- ==== Sys2Proof/Word.lean ====
section
/-! DEFINITION. The widths of the machine: bytes, 16-bit words, 12-bit addresses, nibbles, and the two
sixteen-element index types (registers and keys). -/

namespace Sys2Proof

/-- One memory cell, one register, one timer: 8 bits, unsigned (10_state.md R10, R11, R16). -/
abbrev Byte := BitVec 8

/-- An instruction word, the address register, the program counter, a stack entry: 16 bits
(10_state.md R13, R14, R15; 30_encoding.md R50). -/
abbrev Word := BitVec 16

/-- The NNN field of an instruction: a 12-bit byte address (30_encoding.md R52, R53). -/
abbrev Addr := BitVec 12

/-- The N field of an instruction: 4 bits (30_encoding.md R51, R52). -/
abbrev Nibble := BitVec 4

/-- A register index, 0 to 15, naming `V[0]` to `V[15]` (10_state.md R11). -/
abbrev Reg := Fin 16

/-- A key symbol, 0x0 to 0xF (10_state.md R17). -/
abbrev Key := Fin 16

end Sys2Proof
end

