-- ==== Sys2Proof/Config.lean ====
section
/-! DEFINITION. The parameters of the block (00_scope.md R6) and the one value the spec leaves free, the byte
the external random source answers (60_exceptions.md R158). -/

namespace Sys2Proof.Config

/-- MEM_SIZE: 4096 bytes; addresses run from 0x000 to 0xFFF (R6, R10). -/
def memSize : Nat := 0x1000

/-- PROG_BASE and RESET_PC: 0x200 (R6, R14). -/
def progBase : Nat := 0x200

/-- IMAGE_MAX: 3584 = MEM_SIZE - PROG_BASE (R6; 90_conflicts.md C1). -/
def imageMax : Nat := 3584

/-- STACK_DEPTH: 16 return addresses. DESIGN CHOICE of the spec (92_eei_decisions.md D3), log entry 4. -/
def stackDepth : Nat := 16

/-- FONT_BASE: 0x050. DESIGN CHOICE of the spec (92_eei_decisions.md D4), log entry 5. -/
def fontBase : Nat := 0x050

/-- GLYPH_BYTES: each glyph takes 5 bytes (R6, R25). -/
def glyphBytes : Nat := 5

/-- The default FONT_TABLE, one row per glyph 0 to F, top row of the glyph first (10_state.md R25).
PRESUMED by the spec from general knowledge (92_eei_decisions.md D5), log entry 6. -/
def fontGlyphs : List (List Byte) :=
  [ [0xF0, 0x90, 0x90, 0x90, 0xF0],
    [0x20, 0x60, 0x20, 0x20, 0x70],
    [0xF0, 0x10, 0xF0, 0x80, 0xF0],
    [0xF0, 0x10, 0xF0, 0x10, 0xF0],
    [0x90, 0x90, 0xF0, 0x10, 0x10],
    [0xF0, 0x80, 0xF0, 0x10, 0xF0],
    [0xF0, 0x80, 0xF0, 0x90, 0xF0],
    [0xF0, 0x10, 0x20, 0x40, 0x40] ] ++
  [ [0xF0, 0x90, 0xF0, 0x90, 0xF0],
    [0xF0, 0x90, 0xF0, 0x10, 0xF0],
    [0xF0, 0x90, 0xF0, 0x90, 0x90],
    [0xE0, 0x90, 0xE0, 0x90, 0xE0],
    [0xF0, 0x80, 0x80, 0x80, 0xF0],
    [0xE0, 0x90, 0x90, 0x90, 0xE0],
    [0xF0, 0x80, 0xF0, 0x80, 0xF0],
    [0xF0, 0x80, 0xF0, 0x80, 0x80] ]

/-- The default FONT_TABLE as the 80 bytes that `Reset` places at FONT_BASE (R24, R25). -/
def fontTable : Vector Byte 80 := ⟨fontGlyphs.flatten.toArray, by decide⟩

/-- FB_W: 64 columns (R6, R18). -/
def fbWidth : Nat := 64

/-- FB_H: 32 rows (R6, R18). -/
def fbHeight : Nat := 32

/-- THE FREE VALUE OF THE MODEL: the byte the random source answers to the n-th executed CXNN of a run. It has
no body, so nothing proved of the machine can rest on which byte it is (42_alu.md R103; 60_exceptions.md R158;
92_eei_decisions.md D17), log entry 7. Safe for a claim about one run: it holds for every sequence
of draws. A claim that compares two executions at one count compares them with the same byte, and says so. -/
opaque randomByte : Nat → Byte

end Sys2Proof.Config
end

