-- ==== Sys2Proof/Machine/State.lean ====
section
/-! DEFINITION. The state of the block, the ten elements of 10_state.md R10 to R19 and the model's own counter of
random draws, as plain data; the reasons a step can stop; the state after reset. -/

namespace Sys2Proof.Machine

/-- The five errors of 60_exceptions.md R140. -/
inductive Error where
  | imageTooLarge
  | addressOutOfRange
  | stackUnderflow
  | stackOverflow
  | invalidOpcode
  deriving DecidableEq, Repr

/-- The run state (10_state.md R19). -/
inductive RunState where
  /-- The next `Step()` fetches and executes. -/
  | running
  /-- FX0A with X = r has executed; the core waits for a key-press event. -/
  | awaitingKey (r : Reg)
  /-- Error e was raised; only `Reset` leaves this. -/
  | halted (e : Error)
  deriving DecidableEq, Repr

/-- The machine's faults: there are none. Every error of the spec has a described entry (60_exceptions.md R143),
so raising one is a next state whose `run` is `halted`, and no step ends in a fault. -/
inductive Fault where
  deriving DecidableEq, Repr

/-- Why an operation is given no step. -/
inductive Refusal where
  /-- Raised by exec's arm of an instruction that has no meaning yet; safe. No arm raises it. -/
  | notModelled (mnemonic : String)
  /-- Raised by the operation `SetKey(k, p)` with k above 15, for which the block defines no behaviour
  (60_exceptions.md R154; 92_eei_decisions.md D23); safe. No instruction raises it. -/
  | keyIndexOutOfRange (k : Nat)
  deriving DecidableEq, Repr

/-- Memory: address and byte pairs in strictly rising address order, no entry equal to what an unlisted address
reads as (Machine/Memory.lean). -/
abbrev Memory := List Host.Cell

/-- The framebuffer, `fb[y][x]`: 32 rows of 64 pixels, `true` for on (10_state.md R18). -/
abbrev Screen := Vector (Vector Bool 64) 32

/-- The state. Every element but the last is the spec's. -/
structure State where
  /-- `mem`, the 4096 bytes (R10). -/
  mem : Memory
  /-- `V[0]` to `V[15]` (R11); `V[15]` is the flag (R12). -/
  v : Vector Byte 16
  /-- `I`, the address register (R13). -/
  i : Word
  /-- `pc` (R14). -/
  pc : Word
  /-- `stack`, oldest entry first, the last entry is the top (R15). -/
  stack : List Word
  /-- `DT`, the delay timer (R16). -/
  dt : Byte
  /-- `ST`, the sound timer (R16). -/
  st : Byte
  /-- `keys[0]` to `keys[15]`, `true` for pressed (R17). -/
  keys : Vector Bool 16
  /-- `fb` (R18). -/
  fb : Screen
  /-- `run` (R19). -/
  run : RunState
  /-- THE MODEL'S OWN FIELD, not the spec's: how many random bytes CXNN has taken. It picks the next free value
  `Config.randomByte draws` (log entry 7); no rule reads it. -/
  draws : Nat
  deriving DecidableEq, Repr

/-- The state after `Reset` of the empty image (10_state.md R24; 70_reset_and_hazards.md R170): memory lists
nothing, so every byte reads as after reset, the font at FONT_BASE and 0 elsewhere. -/
def State.reset : State where
  mem := []
  v := Vector.replicate 16 0
  i := 0
  pc := BitVec.ofNat 16 Config.progBase
  stack := []
  dt := 0
  st := 0
  keys := Vector.replicate 16 false
  fb := Vector.replicate 32 (Vector.replicate 64 false)
  run := .running
  draws := 0

end Sys2Proof.Machine
end

