-- ==== Sys2Proof/Machine/Memory.lean ====
section
/-! DEFINITION. Memory as data: what an unlisted address reads as, the read and the write of one byte, the write of
consecutive bytes, and the canonical form every operation keeps (Laws/Memory.lean). -/

namespace Sys2Proof.Machine

/-- What an address that memory does not list reads as: its content after `Reset` of the empty image, the font at
FONT_BASE and 0 elsewhere (10_state.md R24; 20_memory.md R33). -/
def Memory.initial (a : Nat) : Byte :=
  if Config.fontBase ≤ a then Config.fontTable.toList.getD (a - Config.fontBase) 0 else 0

/-- `mem[a]` (20_memory.md R36): the byte of the first cell for `a`, or what an unlisted address reads as. -/
def Memory.read : Memory → Nat → Byte
  | [], a => Memory.initial a
  | (a', b) :: m, a => if a = a' then b else Memory.read m a

/-- Places the cell (a, b) before the first cell of a higher address, replacing a cell for `a`. -/
def Memory.insertCell (a : Nat) (b : Byte) : Memory → Memory
  | [] => [(a, b)]
  | (a', b') :: m =>
    if a < a' then (a, b) :: (a', b') :: m
    else if a = a' then (a, b) :: m
    else (a', b') :: Memory.insertCell a b m

/-- Drops the cells for `a`, so that `a` reads as an unlisted address again. -/
def Memory.dropCell (a : Nat) (m : Memory) : Memory := m.filter fun c => c.1 != a

/-- `mem[a] <- b` (20_memory.md R37), in canonical form: writing what an unlisted address reads as removes the
entry. -/
def Memory.write (m : Memory) (a : Nat) (b : Byte) : Memory :=
  if b = Memory.initial a then Memory.dropCell a m else Memory.insertCell a b m

/-- Writes the bytes at consecutive ascending addresses from `a` (20_memory.md R31). -/
def Memory.writeAll (m : Memory) (a : Nat) : List Byte → Memory
  | [] => m
  | b :: bs => Memory.writeAll (m.write a b) (a + 1) bs

/-- The n bytes at `a`, `a + 1`, ..., lowest address first (R31, R36). -/
def Memory.readAll (m : Memory) (a n : Nat) : List Byte := (List.range n).map fun k => m.read (a + k)

/-- The n bytes from `a` lie in the address space 0x000 to 0xFFF; no bytes always do (20_memory.md R35). -/
def inSpace (a n : Nat) : Bool := n == 0 || a + n ≤ Config.memSize

/-- The canonical form: addresses strictly rising, all inside the address space, no cell equal to what an unlisted
address reads as. -/
def Memory.wf (m : Memory) : Bool :=
  decide (m.Pairwise fun c d => c.1 < d.1) && m.all fun c => c.1 < Config.memSize && c.2 != Memory.initial c.1

end Sys2Proof.Machine
end

