-- ==== Sys2Proof/Machine/Ops.lean ====
section
/-! DEFINITION. The named operations over the state: one setter per element, registers, bytes of memory with the
bound check of 20_memory.md R35, the call stack, the framebuffer, and the raising of an error. -/

namespace Sys2Proof.Machine

/-- What a step answers on this machine. -/
abbrev Outcome := Host.Outcome State Fault Refusal

/-! ### One setter per element of the state -/

/-- Replaces `mem`. -/
def State.setMem (s : State) (m : Memory) : State := { s with mem := m }

/-- Replaces the whole register file. -/
def State.setRegs (s : State) (v : Vector Byte 16) : State := { s with v := v }

/-- `I <- a` (10_state.md R13). -/
def State.setI (s : State) (a : Word) : State := { s with i := a }

/-- `pc <- a` (10_state.md R14). -/
def State.setPc (s : State) (a : Word) : State := { s with pc := a }

/-- Replaces the call stack. -/
def State.setStack (s : State) (l : List Word) : State := { s with stack := l }

/-- `DT <- b` (10_state.md R16). -/
def State.setDt (s : State) (b : Byte) : State := { s with dt := b }

/-- `ST <- b` (10_state.md R16). -/
def State.setSt (s : State) (b : Byte) : State := { s with st := b }

/-- Replaces the key vector. -/
def State.setKeys (s : State) (k : Vector Bool 16) : State := { s with keys := k }

/-- Replaces the framebuffer. -/
def State.setFb (s : State) (fb : Screen) : State := { s with fb := fb }

/-- `run <- r` (10_state.md R19). -/
def State.setRun (s : State) (r : RunState) : State := { s with run := r }

/-- Replaces the model's counter of draws. -/
def State.setDraws (s : State) (n : Nat) : State := { s with draws := n }

/-! ### Registers -/

/-- `V[0xF]`, the flag register (10_state.md R12). -/
def flagReg : Reg := 15

/-- `V[0]`, the implicit index register of 0xBNNN (10_state.md R11; 41_control_flow.md R87). -/
def indexReg : Reg := 0

/-- `V[x]` as a read (10_state.md R11). -/
def State.getV (s : State) (x : Reg) : Byte := s.v[x.val]

/-- `V[x] <- b` (10_state.md R11). No register is hardwired. -/
def State.setV (s : State) (x : Reg) (b : Byte) : State := s.setRegs (s.v.set x.val b x.isLt)

/-- `V[0xF] <- flag; V[x] <- b`, in that order: with x = 0xF the result overwrites the flag (10_state.md R20;
42_alu.md R97). -/
def State.setFlagThen (s : State) (flag : Byte) (x : Reg) (b : Byte) : State :=
  (s.setV flagReg flag).setV x b

/-- `V[0]` to `V[k]`, lowest first, for a count of k + 1 (43_memory_ops.md R114). -/
def State.firstRegs (s : State) (x : Reg) : List Byte := s.v.toList.take (x.val + 1)

/-- `V[k] <- bs[k]` for every k that `bs` has; the registers above keep their values (43_memory_ops.md R115). -/
def State.loadRegs (s : State) (bs : List Byte) : State :=
  s.setRegs (Vector.ofFn fun k : Reg => bs.getD k.val s.v[k.val])

/-! ### Bytes of memory -/

/-- `mem[a]`, one byte. -/
def State.readByte (s : State) (a : Nat) : Byte := s.mem.read a

/-- The n bytes from `a`, or none when one of them lies above 0xFFF (20_memory.md R35, R36). -/
def State.readBytes (s : State) (a n : Nat) : Option (List Byte) :=
  if inSpace a n then some (s.mem.readAll a n) else none

/-- The state with the bytes stored from `a`, or none when one of them would lie above 0xFFF: nothing is stored
then (20_memory.md R35, R37). -/
def State.writeBytes (s : State) (a : Nat) (bs : List Byte) : Option State :=
  if inSpace a bs.length then some (s.setMem (s.mem.writeAll a bs)) else none

/-! ### Program counter and call stack -/

/-- Zero extension of a 12-bit address to 16 bits, `zext_16(NNN)` (30_encoding.md R53). -/
def extendAddr (nnn : Addr) : Word := nnn.setWidth 16

/-- Skipping: `pc <- pc + 2` when the condition holds (41_control_flow.md R83). -/
def State.skipIf (s : State) (c : Bool) : State := if c then s.setPc (s.pc + 2) else s

/-- `push(a)`, or none when the stack holds STACK_DEPTH entries already (41_control_flow.md R82). -/
def State.push (s : State) (a : Word) : Option State :=
  if Config.stackDepth ≤ s.stack.length then none else some (s.setStack (s.stack ++ [a]))

/-- `pop()`: the last entry and the state without it, or none when the stack is empty (41_control_flow.md R80). -/
def State.pop (s : State) : Option (Word × State) :=
  match s.stack.getLast? with
  | some a => some (a, s.setStack s.stack.dropLast)
  | none => none

/-! ### The framebuffer -/

/-- The framebuffer with every pixel 0 (44_draw.md R120). -/
def Screen.blank : Screen := Vector.replicate 32 (Vector.replicate 64 false)

/-- `fb[y][x]` (10_state.md R18). -/
def Screen.pixel (fb : Screen) (x : Fin 64) (y : Fin 32) : Bool := fb[y.val][x.val]

/-- `fb[y][x] <- fb[y][x] xor 1` (44_draw.md R121). -/
def Screen.flip (fb : Screen) (x : Fin 64) (y : Fin 32) : Screen :=
  fb.set y.val (fb[y.val].set x.val (!fb[y.val][x.val]) x.isLt) y.isLt

/-! ### Errors -/

/-- The numeric code of an error (60_exceptions.md R140). DESIGN CHOICE of the spec (92_eei_decisions.md D6), log
entry 8. -/
def Error.code : Error → Nat
  | .imageTooLarge => 1
  | .addressOutOfRange => 2
  | .stackUnderflow => 3
  | .stackOverflow => 4
  | .invalidOpcode => 5

/-- `raise E`, THE ENTRY OF EVERY ERROR (40_step_cycle.md R74; 60_exceptions.md R143): `run <- Halted(E)` and nothing
else. Nothing is saved, `pc` is not redirected, and there is no handler; `pc` keeps the value it had when the raise
was reached. There is no return from an error (R144): only `Reset` (Machine/Events.lean) leaves `halted`. -/
def raise (e : Error) (s : State) : Outcome := .next (s.setRun (.halted e))

end Sys2Proof.Machine
end

