-- ==== Sys2Proof/Machine/Operands.lean ====
section
/-! DEFINITION. The operand forms: what an instruction computes from its fields and the registers before it writes
anything (10_state.md R21). -/

namespace Sys2Proof.Machine

/-- The address in `I`, as a number; an effective address `I + k` is formed without wrap (43_memory_ops.md, head;
20_memory.md R35). -/
def State.address (s : State) : Nat := s.i.toNat

/-- BNNN's target: `zext_16(NNN) + zext_16(V[0])` in 16 bits, not masked (41_control_flow.md R87). -/
def State.indexedTarget (s : State) (nnn : Addr) : Word := (extendAddr nnn) + (s.getV indexReg).setWidth 16

/-- FX1E's sum: `(I + V[X]) mod 0x1000` (43_memory_ops.md R111). -/
def State.advancedI (s : State) (x : Reg) : Word :=
  BitVec.ofNat 16 ((s.i.toNat + (s.getV x).toNat) % Config.memSize)

/-- FX29's address: FONT_BASE + 5 * (low nibble of V[X]) (43_memory_ops.md R112). -/
def State.glyphAddress (s : State) (x : Reg) : Word :=
  BitVec.ofNat 16 (Config.fontBase + Config.glyphBytes * ((s.getV x).toNat % 16))

/-- FX33's digits of a byte: hundreds, tens, ones (43_memory_ops.md R113). -/
def decimalDigits (b : Byte) : List Byte :=
  [BitVec.ofNat 8 (b.toNat / 100), BitVec.ofNat 8 (b.toNat / 10 % 10), BitVec.ofNat 8 (b.toNat % 10)]

/-- The key that V[X] names in EX9E and EXA1: its low nibble (46_keyboard.md R135). DESIGN CHOICE of the spec
(92_eei_decisions.md D12), log entry 9. -/
def State.namedKey (s : State) (x : Reg) : Key := Fin.ofNat 16 (s.getV x).toNat

/-- `keys[k]` (10_state.md R17). -/
def State.keyDown (s : State) (k : Key) : Bool := s.keys[k.val]

/-- `draw()`: the byte the random source answers this time (60_exceptions.md R158), a free value (log entry 7). -/
def State.drawnByte (s : State) : Byte := Config.randomByte s.draws

/-- The state after one byte has been taken from the random source: the next draw is a fresh one. -/
def State.afterDraw (s : State) : State := s.setDraws (s.draws + 1)

/-- The column of the framebuffer for column c of a sprite drawn at V[X] = vx: `(vx + c) mod 64` (44_draw.md R121). -/
def spriteColumn (vx : Byte) (c : Nat) : Fin 64 := Fin.ofNat 64 (vx.toNat + c)

/-- The row of the framebuffer for row r of a sprite drawn at V[Y] = vy: `(vy + r) mod 32` (44_draw.md R121). -/
def spriteRow (vy : Byte) (r : Nat) : Fin 32 := Fin.ofNat 32 (vy.toNat + r)

/-- Column c of a sprite byte is bit 7 - c: the most significant bit is column 0 (44_draw.md R121). DESIGN CHOICE of
the spec from general knowledge (92_eei_decisions.md D15), log entry 10. -/
def spriteBit (b : Byte) (c : Nat) : Bool := b.getLsbD (7 - c)

end Sys2Proof.Machine
end

