-- ==== Sys2Proof/Machine/Flags.lean ====
section
/-! DEFINITION. The results and the flags of the arithmetic instructions: operands as numbers, the exact value, and
the narrowing to 8 bits (42_alu.md R96). -/

namespace Sys2Proof.Machine

/-- A flag as a register value: 1 or 0 (10_state.md R12). -/
def flagByte (c : Bool) : Byte := if c then 1 else 0

/-- `(a + b) mod 256` (42_alu.md R96). -/
def sumByte (a b : Byte) : Byte := BitVec.ofNat 8 ((a.toNat + b.toNat) % 256)

/-- The carry of 8XY4: the unsigned sum exceeds 255 (42_alu.md R98). -/
def carryFlag (a b : Byte) : Byte := flagByte (255 < a.toNat + b.toNat)

/-- `(a - b) mod 256`: a - b when a >= b, a - b + 256 when a < b (42_alu.md R96). -/
def differenceByte (a b : Byte) : Byte := BitVec.ofNat 8 ((a.toNat + 256 - b.toNat) % 256)

/-- The flag of 8XY5 and 8XY7: 1 for no borrow, the minuend at least the subtrahend (42_alu.md R99, R101). -/
def noBorrowFlag (a b : Byte) : Byte := flagByte (b.toNat ≤ a.toNat)

/-- `b >> 1` = `b div 2` (42_alu.md R96). -/
def halfByte (b : Byte) : Byte := BitVec.ofNat 8 (b.toNat / 2)

/-- The flag of 8XY6: bit 0 of the source (42_alu.md R100). -/
def lowBitFlag (b : Byte) : Byte := flagByte (b.getLsbD 0)

/-- `(b << 1) mod 256` (42_alu.md R96). -/
def doubleByte (b : Byte) : Byte := BitVec.ofNat 8 (b.toNat * 2 % 256)

/-- The flag of 8XYE: bit 7 of the source (42_alu.md R102). -/
def highBitFlag (b : Byte) : Byte := flagByte (b.getLsbD 7)

end Sys2Proof.Machine
end

