-- ==== Sys2Proof/Machine/Alu.lean ====
section
/-! DEFINITION. The arithmetic and logic instructions (42_alu.md): operands read first, then the flag into V[0xF],
then the result into V[X] (R97). -/

namespace Sys2Proof.Machine

/-- 6XNN LD.I (R90). -/
def execLdI (x : Reg) (nn : Byte) (s : State) : Outcome := .next (s.setV x nn)

/-- 7XNN ADD.I (R91): no flag. -/
def execAddI (x : Reg) (nn : Byte) (s : State) : Outcome := .next (s.setV x (sumByte (s.getV x) nn))

/-- 8XY0 LD.R (R92). -/
def execLdR (x y : Reg) (s : State) : Outcome := .next (s.setV x (s.getV y))

/-- 8XY1 OR (R93): no flag. -/
def execOrR (x y : Reg) (s : State) : Outcome := .next (s.setV x (s.getV x ||| s.getV y))

/-- 8XY2 AND (R94): no flag. -/
def execAndR (x y : Reg) (s : State) : Outcome := .next (s.setV x (s.getV x &&& s.getV y))

/-- 8XY3 XOR (R95): no flag. -/
def execXorR (x y : Reg) (s : State) : Outcome := .next (s.setV x (s.getV x ^^^ s.getV y))

/-- 8XY4 ADD.R (R98). -/
def execAddR (x y : Reg) (s : State) : Outcome :=
  .next (s.setFlagThen (carryFlag (s.getV x) (s.getV y)) x (sumByte (s.getV x) (s.getV y)))

/-- 8XY5 SUB (R99). -/
def execSub (x y : Reg) (s : State) : Outcome :=
  .next (s.setFlagThen (noBorrowFlag (s.getV x) (s.getV y)) x (differenceByte (s.getV x) (s.getV y)))

/-- 8XY6 SHR (R100; 90_conflicts.md C2): the source is V[Y]. -/
def execShr (x y : Reg) (s : State) : Outcome :=
  .next (s.setFlagThen (lowBitFlag (s.getV y)) x (halfByte (s.getV y)))

/-- 8XY7 SUBN (R101). -/
def execSubn (x y : Reg) (s : State) : Outcome :=
  .next (s.setFlagThen (noBorrowFlag (s.getV y) (s.getV x)) x (differenceByte (s.getV y) (s.getV x)))

/-- 8XYE SHL (R102): the source is V[Y]. -/
def execShl (x y : Reg) (s : State) : Outcome :=
  .next (s.setFlagThen (highBitFlag (s.getV y)) x (doubleByte (s.getV y)))

/-- CXNN RND (R103): one byte from the random source, masked with NN. -/
def execRnd (x : Reg) (nn : Byte) (s : State) : Outcome := .next ((s.setV x (s.drawnByte &&& nn)).afterDraw)

end Sys2Proof.Machine
end

