-- ==== Sys2Proof/Machine/Control.lean ====
section
/-! DEFINITION. The control-flow instructions (41_control_flow.md). In every meaning of the model `pc` is already the
address of the instruction plus 2 (40_step_cycle.md R71). -/

namespace Sys2Proof.Machine

/-- 00EE RET (R80). -/
def execRet (s : State) : Outcome :=
  match s.pop with
  | some (a, s') => .next (s'.setPc a)
  | none => raise .stackUnderflow s

/-- 1NNN JP (R81). -/
def execJp (nnn : Addr) (s : State) : Outcome := .next (s.setPc (extendAddr nnn))

/-- 2NNN CALL (R82): the pushed `pc` is the address after the call. -/
def execCall (nnn : Addr) (s : State) : Outcome :=
  match s.push s.pc with
  | some s' => .next (s'.setPc (extendAddr nnn))
  | none => raise .stackOverflow s

/-- 3XNN SE.I (R83). -/
def execSeI (x : Reg) (nn : Byte) (s : State) : Outcome := .next (s.skipIf (s.getV x == nn))

/-- 4XNN SNE.I (R84). -/
def execSneI (x : Reg) (nn : Byte) (s : State) : Outcome := .next (s.skipIf (s.getV x != nn))

/-- 5XY0 SE.R (R85). -/
def execSeR (x y : Reg) (s : State) : Outcome := .next (s.skipIf (s.getV x == s.getV y))

/-- 9XY0 SNE.R (R86). -/
def execSneR (x y : Reg) (s : State) : Outcome := .next (s.skipIf (s.getV x != s.getV y))

/-- BNNN JP.V0 (R87). -/
def execJpV0 (nnn : Addr) (s : State) : Outcome := .next (s.setPc (s.indexedTarget nnn))

end Sys2Proof.Machine
end

