-- ==== Sys2Proof/Machine/Draw.lean ====
section
/-! DEFINITION. The framebuffer instructions (44_draw.md): clear, and the sprite draw as the loops of R121. -/

namespace Sys2Proof.Machine

/-- One sprite bit at (x, y): a bit 1 inverts the pixel, and records a collision when the pixel was on; a bit 0 does
nothing (R121). The pair is the framebuffer and the collision so far. -/
def drawPixel (x : Fin 64) (y : Fin 32) (bit : Bool) (p : Screen × Bool) : Screen × Bool :=
  if bit then (p.1.flip x y, p.2 || p.1.pixel x y) else p

/-- The eight columns of sprite row r (R121). -/
def drawRow (vx vy : Byte) (p : Screen × Bool) (row : Byte × Nat) : Screen × Bool :=
  (List.range 8).foldl (fun q c => drawPixel (spriteColumn vx c) (spriteRow vy row.2) (spriteBit row.1 c) q) p

/-- All rows of a sprite, top row first, starting with no collision (R121). -/
def drawSprite (vx vy : Byte) (rows : List Byte) (fb : Screen) : Screen × Bool :=
  rows.zipIdx.foldl (drawRow vx vy) (fb, false)

/-- 00E0 CLS (R120): no flag. -/
def execCls (s : State) : Outcome := .next (s.setFb Screen.blank)

/-- DXYN DRW (R121): the flag is written once, after the whole sprite, and always. -/
def execDrw (x y : Reg) (n : Nibble) (s : State) : Outcome :=
  match s.readBytes s.address n.toNat with
  | some rows =>
    let p := drawSprite (s.getV x) (s.getV y) rows s.fb
    .next ((s.setFb p.1).setV flagReg (flagByte p.2))
  | none => raise .addressOutOfRange s

end Sys2Proof.Machine
end

