-- ==== Sys2Proof/Machine/Keyboard.lean ====
section
/-! DEFINITION. The keyboard instructions (46_keyboard.md). -/

namespace Sys2Proof.Machine

/-- EX9E SKP (R135). -/
def execSkp (x : Reg) (s : State) : Outcome := .next (s.skipIf (s.keyDown (s.namedKey x)))

/-- EXA1 SKNP (R136). -/
def execSknp (x : Reg) (s : State) : Outcome := .next (s.skipIf (!s.keyDown (s.namedKey x)))

/-- FX0A LD.KEY (R137): `run <- AwaitingKey(X)` and nothing else; the instruction is completed later, by a key-press
event (`setKey` of Machine/Events.lean). -/
def execLdKey (x : Reg) (s : State) : Outcome := .next (s.setRun (.awaitingKey x))

end Sys2Proof.Machine
end

