-- ==== Sys2Proof/Machine/MemoryOps.lean ====
section
/-! DEFINITION. The address-register and memory instructions (43_memory_ops.md). `I` is never changed as a side effect
of an access. -/

namespace Sys2Proof.Machine

/-- ANNN LD.A (R110). -/
def execLdA (nnn : Addr) (s : State) : Outcome := .next (s.setI (extendAddr nnn))

/-- FX1E ADD.A (R111): no flag. -/
def execAddA (x : Reg) (s : State) : Outcome := .next (s.setI (s.advancedI x))

/-- FX29 LD.FNT (R112). -/
def execLdFnt (x : Reg) (s : State) : Outcome := .next (s.setI (s.glyphAddress x))

/-- FX33 BCD (R113). -/
def execBcd (x : Reg) (s : State) : Outcome :=
  match s.writeBytes s.address (decimalDigits (s.getV x)) with
  | some s' => .next s'
  | none => raise .addressOutOfRange s

/-- FX55 ST.M (R114). -/
def execStM (x : Reg) (s : State) : Outcome :=
  match s.writeBytes s.address (s.firstRegs x) with
  | some s' => .next s'
  | none => raise .addressOutOfRange s

/-- FX65 LD.M (R115). -/
def execLdM (x : Reg) (s : State) : Outcome :=
  match s.readBytes s.address (x.val + 1) with
  | some bs => .next (s.loadRegs bs)
  | none => raise .addressOutOfRange s

end Sys2Proof.Machine
end

