-- ==== Sys2Proof/Machine/Timer.lean ====
section
/-! DEFINITION. The timer instructions (45_timer.md). -/

namespace Sys2Proof.Machine

/-- FX07 LD.GDT (R130). -/
def execLdGdt (x : Reg) (s : State) : Outcome := .next (s.setV x s.dt)

/-- FX15 LD.SDT (R131). -/
def execLdSdt (x : Reg) (s : State) : Outcome := .next (s.setDt (s.getV x))

/-- FX18 LD.SST (R132). -/
def execLdSst (x : Reg) (s : State) : Outcome := .next (s.setSt (s.getV x))

end Sys2Proof.Machine
end

