-- ==== Sys2Proof/Syntax.lean ====
section
/-! DEFINITION. The 34 instructions (30_encoding.md R55), one constructor per row of the opcode table, in the
table's order; the operand fields are X, Y (registers), NN (byte), NNN (12-bit address) and N (row count) of R52. -/

namespace Sys2Proof

/-- One instruction with its operand fields. -/
inductive Instr where
  /-- 00E0 CLS: clear the framebuffer (44_draw.md R120). -/
  | cls
  /-- 00EE RET: return (41_control_flow.md R80). -/
  | ret
  /-- 1NNN JP: jump (R81). -/
  | jp (nnn : Addr)
  /-- 2NNN CALL: call (R82). -/
  | call (nnn : Addr)
  /-- 3XNN SE.I: skip if equal, immediate (R83). -/
  | seI (x : Reg) (nn : Byte)
  /-- 4XNN SNE.I: skip if not equal, immediate (R84). -/
  | sneI (x : Reg) (nn : Byte)
  /-- 5XY0 SE.R: skip if equal, register (R85). -/
  | seR (x y : Reg)
  /-- 6XNN LD.I: load immediate (42_alu.md R90). -/
  | ldI (x : Reg) (nn : Byte)
  /-- 7XNN ADD.I: add immediate (R91). -/
  | addI (x : Reg) (nn : Byte)
  /-- 8XY0 LD.R: copy register (R92). -/
  | ldR (x y : Reg)
  /-- 8XY1 OR (R93). -/
  | orR (x y : Reg)
  /-- 8XY2 AND (R94). -/
  | andR (x y : Reg)
  /-- 8XY3 XOR (R95). -/
  | xorR (x y : Reg)
  /-- 8XY4 ADD.R: add, carry into VF (R98). -/
  | addR (x y : Reg)
  /-- 8XY5 SUB: V[X] - V[Y], no-borrow into VF (R99). -/
  | sub (x y : Reg)
  /-- 8XY6 SHR: V[Y] shifted right into V[X], bit 0 into VF (R100). -/
  | shr (x y : Reg)
  /-- 8XY7 SUBN: V[Y] - V[X], no-borrow into VF (R101). -/
  | subn (x y : Reg)
  /-- 8XYE SHL: V[Y] shifted left into V[X], bit 7 into VF (R102). -/
  | shl (x y : Reg)
  /-- 9XY0 SNE.R: skip if not equal, register (41_control_flow.md R86). -/
  | sneR (x y : Reg)
  /-- ANNN LD.A: load the address register (43_memory_ops.md R110). -/
  | ldA (nnn : Addr)
  /-- BNNN JP.V0: jump indexed by V[0] (41_control_flow.md R87). -/
  | jpV0 (nnn : Addr)
  /-- CXNN RND: random byte and mask (42_alu.md R103). -/
  | rnd (x : Reg) (nn : Byte)
  /-- DXYN DRW: draw a sprite of N rows (44_draw.md R121). -/
  | drw (x y : Reg) (n : Nibble)
  /-- EX9E SKP: skip if key pressed (46_keyboard.md R135). -/
  | skp (x : Reg)
  /-- EXA1 SKNP: skip if key not pressed (R136). -/
  | sknp (x : Reg)
  /-- FX07 LD.GDT: read the delay timer (45_timer.md R130). -/
  | ldGdt (x : Reg)
  /-- FX0A LD.KEY: wait for a key (46_keyboard.md R137). -/
  | ldKey (x : Reg)
  /-- FX15 LD.SDT: set the delay timer (45_timer.md R131). -/
  | ldSdt (x : Reg)
  /-- FX18 LD.SST: set the sound timer (R132). -/
  | ldSst (x : Reg)
  /-- FX1E ADD.A: add to the address register (43_memory_ops.md R111). -/
  | addA (x : Reg)
  /-- FX29 LD.FNT: glyph address (R112). -/
  | ldFnt (x : Reg)
  /-- FX33 BCD: store decimal digits (R113). -/
  | bcd (x : Reg)
  /-- FX55 ST.M: store V[0] to V[X] (R114). -/
  | stM (x : Reg)
  /-- FX65 LD.M: load V[0] to V[X] (R115). -/
  | ldM (x : Reg)
  deriving DecidableEq, Repr

/-- Why the decoder refuses a sequence of bytes. -/
inductive DecodeError where
  /-- Fewer than two bytes: an instruction is exactly two (30_encoding.md R50). -/
  | truncated
  /-- The word `w` is one of the 21582 that match no row of the table (30_encoding.md R60): the spec's `Invalid`. -/
  | invalidOpcode (w : Word)
  deriving DecidableEq, Repr

end Sys2Proof
end

