-- ==== Sys2Proof/Machine/Dispatch.lean ====
section
/-! DEFINITION. `Execute(i)` of 40_step_cycle.md R73: one arm per instruction, each one call of its meaning. -/

namespace Sys2Proof.Machine

def exec (i : Instr) (s : State) : Host.Outcome State Fault Refusal :=
  match i with
  -- 44_draw.md and 41_control_flow.md
  | .cls => Sys2Proof.Machine.execCls s
  | .ret => Sys2Proof.Machine.execRet s
  | .jp nnn => Sys2Proof.Machine.execJp nnn s
  | .call nnn => Sys2Proof.Machine.execCall nnn s
  | .seI x nn => Sys2Proof.Machine.execSeI x nn s
  | .sneI x nn => Sys2Proof.Machine.execSneI x nn s
  | .seR x y => Sys2Proof.Machine.execSeR x y s
  -- 42_alu.md
  | .ldI x nn => Sys2Proof.Machine.execLdI x nn s
  | .addI x nn => Sys2Proof.Machine.execAddI x nn s
  | .ldR x y => Sys2Proof.Machine.execLdR x y s
  | .orR x y => Sys2Proof.Machine.execOrR x y s
  | .andR x y => Sys2Proof.Machine.execAndR x y s
  | .xorR x y => Sys2Proof.Machine.execXorR x y s
  | .addR x y => Sys2Proof.Machine.execAddR x y s
  | .sub x y => Sys2Proof.Machine.execSub x y s
  | .shr x y => Sys2Proof.Machine.execShr x y s
  | .subn x y => Sys2Proof.Machine.execSubn x y s
  | .shl x y => Sys2Proof.Machine.execShl x y s
  -- 41_control_flow.md
  | .sneR x y => Sys2Proof.Machine.execSneR x y s
  -- 43_memory_ops.md, 41_control_flow.md, 42_alu.md, 44_draw.md
  | .ldA nnn => Sys2Proof.Machine.execLdA nnn s
  | .jpV0 nnn => Sys2Proof.Machine.execJpV0 nnn s
  | .rnd x nn => Sys2Proof.Machine.execRnd x nn s
  | .drw x y n => Sys2Proof.Machine.execDrw x y n s
  -- 46_keyboard.md and 45_timer.md
  | .skp x => Sys2Proof.Machine.execSkp x s
  | .sknp x => Sys2Proof.Machine.execSknp x s
  | .ldGdt x => Sys2Proof.Machine.execLdGdt x s
  | .ldKey x => Sys2Proof.Machine.execLdKey x s
  | .ldSdt x => Sys2Proof.Machine.execLdSdt x s
  | .ldSst x => Sys2Proof.Machine.execLdSst x s
  -- 43_memory_ops.md
  | .addA x => Sys2Proof.Machine.execAddA x s
  | .ldFnt x => Sys2Proof.Machine.execLdFnt x s
  | .bcd x => Sys2Proof.Machine.execBcd x s
  | .stM x => Sys2Proof.Machine.execStM x s
  | .ldM x => Sys2Proof.Machine.execLdM x s

end Sys2Proof.Machine
end

