-- ==== Sys2Proof/WellFormed.lean ====
section
/-! DEFINITION. What counts as well-formed: operand fields that fit their bits, instruction words that match a row
of the opcode map, program images that fit, key indices of the interface, and the parameters of the block. -/

namespace Sys2Proof

/-! ### Operand fields -/

/-- An operand value together with the number of bits its field has in the word (30_encoding.md R52). -/
structure Field where
  value : Nat
  width : Nat
  deriving DecidableEq, Repr

/-- The value fits the field's bits. -/
def Field.wf (f : Field) : Bool := f.value < 2 ^ f.width

/-- The operand fields of an instruction, as R52 and R54 list them. -/
def Instr.fields : Instr → List Field
  | .cls => []
  | .ret => []
  | .jp nnn => [⟨nnn.toNat, 12⟩]
  | .call nnn => [⟨nnn.toNat, 12⟩]
  | .seI x nn => [⟨x.val, 4⟩, ⟨nn.toNat, 8⟩]
  | .sneI x nn => [⟨x.val, 4⟩, ⟨nn.toNat, 8⟩]
  | .seR x y => [⟨x.val, 4⟩, ⟨y.val, 4⟩]
  | .ldI x nn => [⟨x.val, 4⟩, ⟨nn.toNat, 8⟩]
  | .addI x nn => [⟨x.val, 4⟩, ⟨nn.toNat, 8⟩]
  | .ldR x y => [⟨x.val, 4⟩, ⟨y.val, 4⟩]
  | .orR x y => [⟨x.val, 4⟩, ⟨y.val, 4⟩]
  | .andR x y => [⟨x.val, 4⟩, ⟨y.val, 4⟩]
  | .xorR x y => [⟨x.val, 4⟩, ⟨y.val, 4⟩]
  | .addR x y => [⟨x.val, 4⟩, ⟨y.val, 4⟩]
  | .sub x y => [⟨x.val, 4⟩, ⟨y.val, 4⟩]
  | .shr x y => [⟨x.val, 4⟩, ⟨y.val, 4⟩]
  | .subn x y => [⟨x.val, 4⟩, ⟨y.val, 4⟩]
  | .shl x y => [⟨x.val, 4⟩, ⟨y.val, 4⟩]
  | .sneR x y => [⟨x.val, 4⟩, ⟨y.val, 4⟩]
  | .ldA nnn => [⟨nnn.toNat, 12⟩]
  | .jpV0 nnn => [⟨nnn.toNat, 12⟩]
  | .rnd x nn => [⟨x.val, 4⟩, ⟨nn.toNat, 8⟩]
  | .drw x y n => [⟨x.val, 4⟩, ⟨y.val, 4⟩, ⟨n.toNat, 4⟩]
  | .skp x => [⟨x.val, 4⟩]
  | .sknp x => [⟨x.val, 4⟩]
  | .ldGdt x => [⟨x.val, 4⟩]
  | .ldKey x => [⟨x.val, 4⟩]
  | .ldSdt x => [⟨x.val, 4⟩]
  | .ldSst x => [⟨x.val, 4⟩]
  | .addA x => [⟨x.val, 4⟩]
  | .ldFnt x => [⟨x.val, 4⟩]
  | .bcd x => [⟨x.val, 4⟩]
  | .stM x => [⟨x.val, 4⟩]
  | .ldM x => [⟨x.val, 4⟩]

/-- An instruction is well-formed when every operand fits its field. The operand types make this true of every
instruction, as 30_encoding.md R62 says: every value of every operand field is legal (Laws/PerInstr.lean,
family FieldsFit). -/
def Instr.wf (i : Instr) : Bool := i.fields.all Field.wf

/-! ### The opcode map -/

/-- One row of the opcode map of 30_encoding.md R55: its number, its mnemonic, and `match` (here `value`) and `mask`. -/
structure OpcodeRow where
  number : Nat
  mnemonic : String
  value : Word
  mask : Word
  deriving DecidableEq, Repr

/-- Word `w` spells the row's instruction exactly when `w and mask = match` (R55). -/
def OpcodeRow.covers (r : OpcodeRow) (w : Word) : Bool := w &&& r.mask == r.value

/-- The 34 rows of R55, in the table's order. -/
def opcodeTable : List OpcodeRow :=
  [ ⟨1, "CLS", 0x00E0, 0xFFFF⟩,
    ⟨2, "RET", 0x00EE, 0xFFFF⟩,
    ⟨3, "JP", 0x1000, 0xF000⟩,
    ⟨4, "CALL", 0x2000, 0xF000⟩,
    ⟨5, "SE.I", 0x3000, 0xF000⟩,
    ⟨6, "SNE.I", 0x4000, 0xF000⟩,
    ⟨7, "SE.R", 0x5000, 0xF00F⟩,
    ⟨8, "LD.I", 0x6000, 0xF000⟩,
    ⟨9, "ADD.I", 0x7000, 0xF000⟩ ] ++
  [ ⟨10, "LD.R", 0x8000, 0xF00F⟩,
    ⟨11, "OR", 0x8001, 0xF00F⟩,
    ⟨12, "AND", 0x8002, 0xF00F⟩,
    ⟨13, "XOR", 0x8003, 0xF00F⟩,
    ⟨14, "ADD.R", 0x8004, 0xF00F⟩,
    ⟨15, "SUB", 0x8005, 0xF00F⟩,
    ⟨16, "SHR", 0x8006, 0xF00F⟩,
    ⟨17, "SUBN", 0x8007, 0xF00F⟩,
    ⟨18, "SHL", 0x800E, 0xF00F⟩,
    ⟨19, "SNE.R", 0x9000, 0xF00F⟩ ] ++
  [ ⟨20, "LD.A", 0xA000, 0xF000⟩,
    ⟨21, "JP.V0", 0xB000, 0xF000⟩,
    ⟨22, "RND", 0xC000, 0xF000⟩,
    ⟨23, "DRW", 0xD000, 0xF000⟩,
    ⟨24, "SKP", 0xE09E, 0xF0FF⟩,
    ⟨25, "SKNP", 0xE0A1, 0xF0FF⟩ ] ++
  [ ⟨26, "LD.GDT", 0xF007, 0xF0FF⟩,
    ⟨27, "LD.KEY", 0xF00A, 0xF0FF⟩,
    ⟨28, "LD.SDT", 0xF015, 0xF0FF⟩,
    ⟨29, "LD.SST", 0xF018, 0xF0FF⟩,
    ⟨30, "ADD.A", 0xF01E, 0xF0FF⟩,
    ⟨31, "LD.FNT", 0xF029, 0xF0FF⟩,
    ⟨32, "BCD", 0xF033, 0xF0FF⟩,
    ⟨33, "ST.M", 0xF055, 0xF0FF⟩,
    ⟨34, "LD.M", 0xF065, 0xF0FF⟩ ]

/-- The number of an instruction's row in the opcode map (R55, column #). -/
def Instr.rowNumber : Instr → Nat
  | .cls => 1
  | .ret => 2
  | .jp _ => 3
  | .call _ => 4
  | .seI _ _ => 5
  | .sneI _ _ => 6
  | .seR _ _ => 7
  | .ldI _ _ => 8
  | .addI _ _ => 9
  | .ldR _ _ => 10
  | .orR _ _ => 11
  | .andR _ _ => 12
  | .xorR _ _ => 13
  | .addR _ _ => 14
  | .sub _ _ => 15
  | .shr _ _ => 16
  | .subn _ _ => 17
  | .shl _ _ => 18
  | .sneR _ _ => 19
  | .ldA _ => 20
  | .jpV0 _ => 21
  | .rnd _ _ => 22
  | .drw _ _ _ => 23
  | .skp _ => 24
  | .sknp _ => 25
  | .ldGdt _ => 26
  | .ldKey _ => 27
  | .ldSdt _ => 28
  | .ldSst _ => 29
  | .addA _ => 30
  | .ldFnt _ => 31
  | .bcd _ => 32
  | .stM _ => 33
  | .ldM _ => 34

/-- The rows of the opcode map that cover `w`, by number. -/
def rowsCovering (w : Word) : List Nat := (opcodeTable.filter (·.covers w)).map OpcodeRow.number

/-- A word is an instruction exactly when some row covers it (R55, R59). -/
def Word.isInstruction (w : Word) : Bool := opcodeTable.any (·.covers w)

/-! ### The interface and the parameters -/

/-- A program image fits when it has at most IMAGE_MAX bytes (70_reset_and_hazards.md R170, R171). -/
def imageFits (image : List Byte) : Bool := image.length ≤ Config.imageMax

/-- A font table has exactly 80 bytes, 16 glyphs of 5 (10_state.md R25). -/
def fontWf (font : List Byte) : Bool := font.length == 16 * Config.glyphBytes

/-- An index the interface admits for `SetKey`: 0 to 15 (60_exceptions.md R154). -/
def keyIndexWf (k : Nat) : Bool := k < 16

/-- The constraint on the decided parameters: a font of 80 bytes at `base` lies inside the reserved region
0x000 to 0x1FF (00_scope.md section 5). -/
def fontBaseWf (base : Nat) : Bool := base + 16 * Config.glyphBytes ≤ Config.progBase

end Sys2Proof
end

