-- ==== Sys2Proof/Decode.lean ====
section
/-! DEFINITION. The decoder (30_encoding.md R56), total on every word and every sequence of bytes, and the encoder
(30_encoding.md section 7), written from the same formats (R54). -/

namespace Sys2Proof

/-! ### The fields of a word (R51, R52) -/

/-- n3, the top nibble, `w[15:12]`. -/
def topNibble (w : Word) : Nat := (w.extractLsb' 12 4).toNat

/-- n0, the low nibble, `w[3:0]`. -/
def lowNibble (w : Word) : Nat := (w.extractLsb' 0 4).toNat

/-- The low byte, `w[7:0]`, as a discriminator. -/
def lowByte (w : Word) : Nat := (w.extractLsb' 0 8).toNat

/-- X = `w[11:8]`. -/
def fieldX (w : Word) : Reg := (w.extractLsb' 8 4).toFin

/-- Y = `w[7:4]`. -/
def fieldY (w : Word) : Reg := (w.extractLsb' 4 4).toFin

/-- N = `w[3:0]`. -/
def fieldN (w : Word) : Nibble := w.extractLsb' 0 4

/-- NN = `w[7:0]`. -/
def fieldNN (w : Word) : Byte := w.extractLsb' 0 8

/-- NNN = `w[11:0]`. -/
def fieldNNN (w : Word) : Addr := w.extractLsb' 0 12

/-! ### Decoding -/

/-- Concatenation `hi ∥ lo` of two bytes into a word, `hi` in bits 15 to 8: the byte order of the fetch
(20_memory.md R32; 30_encoding.md R50). -/
def wordOfBytes (hi lo : Byte) : Word := hi ++ lo

/-- The answer for a word that spells no instruction (R59, R60). -/
def invalid (w : Word) : Except DecodeError Instr := .error (.invalidOpcode w)

/-- Family 0x0 compares the whole word (R57). -/
def decodeFixed (w : Word) : Except DecodeError Instr :=
  if w = 0x00E0 then .ok .cls
  else if w = 0x00EE then .ok .ret
  else invalid w

/-- Families 0x5 and 0x9: the low nibble must be 0 (R58). -/
def decodeLowZero (w : Word) (i : Instr) : Except DecodeError Instr :=
  if lowNibble w = 0 then .ok i else invalid w

/-- Family 0x8 selects by the low nibble (R56). -/
def decodeArith (w : Word) : Except DecodeError Instr :=
  match lowNibble w with
  | 0x0 => .ok (.ldR (fieldX w) (fieldY w))
  | 0x1 => .ok (.orR (fieldX w) (fieldY w))
  | 0x2 => .ok (.andR (fieldX w) (fieldY w))
  | 0x3 => .ok (.xorR (fieldX w) (fieldY w))
  | 0x4 => .ok (.addR (fieldX w) (fieldY w))
  | 0x5 => .ok (.sub (fieldX w) (fieldY w))
  | 0x6 => .ok (.shr (fieldX w) (fieldY w))
  | 0x7 => .ok (.subn (fieldX w) (fieldY w))
  | 0xE => .ok (.shl (fieldX w) (fieldY w))
  | _ => invalid w

/-- Family 0xE selects by the low byte (R56). -/
def decodeKeys (w : Word) : Except DecodeError Instr :=
  match lowByte w with
  | 0x9E => .ok (.skp (fieldX w))
  | 0xA1 => .ok (.sknp (fieldX w))
  | _ => invalid w

/-- Family 0xF selects by the low byte (R56). -/
def decodeMisc (w : Word) : Except DecodeError Instr :=
  match lowByte w with
  | 0x07 => .ok (.ldGdt (fieldX w))
  | 0x0A => .ok (.ldKey (fieldX w))
  | 0x15 => .ok (.ldSdt (fieldX w))
  | 0x18 => .ok (.ldSst (fieldX w))
  | 0x1E => .ok (.addA (fieldX w))
  | 0x29 => .ok (.ldFnt (fieldX w))
  | 0x33 => .ok (.bcd (fieldX w))
  | 0x55 => .ok (.stM (fieldX w))
  | 0x65 => .ok (.ldM (fieldX w))
  | _ => invalid w

/-- `Decode(w)`: the two-level dispatch of R56, top nibble first. The top nibble has sixteen values, so the arm after
0xF is never reached. -/
def decodeWord (w : Word) : Except DecodeError Instr :=
  match topNibble w with
  | 0x0 => decodeFixed w
  | 0x1 => .ok (.jp (fieldNNN w))
  | 0x2 => .ok (.call (fieldNNN w))
  | 0x3 => .ok (.seI (fieldX w) (fieldNN w))
  | 0x4 => .ok (.sneI (fieldX w) (fieldNN w))
  | 0x5 => decodeLowZero w (.seR (fieldX w) (fieldY w))
  | 0x6 => .ok (.ldI (fieldX w) (fieldNN w))
  | 0x7 => .ok (.addI (fieldX w) (fieldNN w))
  | 0x8 => decodeArith w
  | 0x9 => decodeLowZero w (.sneR (fieldX w) (fieldY w))
  | 0xA => .ok (.ldA (fieldNNN w))
  | 0xB => .ok (.jpV0 (fieldNNN w))
  | 0xC => .ok (.rnd (fieldX w) (fieldNN w))
  | 0xD => .ok (.drw (fieldX w) (fieldY w) (fieldN w))
  | 0xE => decodeKeys w
  | 0xF => decodeMisc w
  | _ => invalid w

/-- Decodes the instruction at the head of a sequence of bytes, high byte first, and gives the bytes after it
(R50, R32). -/
def decode : List Byte → Except DecodeError (Instr × List Byte)
  | hi :: lo :: rest =>
    match decodeWord (wordOfBytes hi lo) with
    | .ok i => .ok (i, rest)
    | .error e => .error e
  | _ => .error .truncated

/-! ### Encoding (R54 and section 7) -/

/-- A register index as the four bits of its field. -/
def regBits (x : Reg) : Nibble := BitVec.ofFin x

/-- Format NNN: op, NNN. -/
def formatNNN (op : Nibble) (nnn : Addr) : Word := op ++ nnn

/-- Format XNN: op, X, NN. -/
def formatXNN (op : Nibble) (x : Reg) (nn : Byte) : Word := op ++ regBits x ++ nn

/-- Formats XY and XYN: op, X, Y, and the low nibble (fixed in XY, N in XYN). -/
def formatXYN (op : Nibble) (x y : Reg) (n : Nibble) : Word := op ++ regBits x ++ regBits y ++ n

/-- Format X: op, X, and the fixed low byte. -/
def formatX (op : Nibble) (x : Reg) (low : Byte) : Word := op ++ regBits x ++ low

/-- The word of an instruction. -/
def encodeWord : Instr → Word
  | .cls => 0x00E0
  | .ret => 0x00EE
  | .jp nnn => formatNNN 0x1 nnn
  | .call nnn => formatNNN 0x2 nnn
  | .seI x nn => formatXNN 0x3 x nn
  | .sneI x nn => formatXNN 0x4 x nn
  | .seR x y => formatXYN 0x5 x y 0x0
  | .ldI x nn => formatXNN 0x6 x nn
  | .addI x nn => formatXNN 0x7 x nn
  | .ldR x y => formatXYN 0x8 x y 0x0
  | .orR x y => formatXYN 0x8 x y 0x1
  | .andR x y => formatXYN 0x8 x y 0x2
  | .xorR x y => formatXYN 0x8 x y 0x3
  | .addR x y => formatXYN 0x8 x y 0x4
  | .sub x y => formatXYN 0x8 x y 0x5
  | .shr x y => formatXYN 0x8 x y 0x6
  | .subn x y => formatXYN 0x8 x y 0x7
  | .shl x y => formatXYN 0x8 x y 0xE
  | .sneR x y => formatXYN 0x9 x y 0x0
  | .ldA nnn => formatNNN 0xA nnn
  | .jpV0 nnn => formatNNN 0xB nnn
  | .rnd x nn => formatXNN 0xC x nn
  | .drw x y n => formatXYN 0xD x y n
  | .skp x => formatX 0xE x 0x9E
  | .sknp x => formatX 0xE x 0xA1
  | .ldGdt x => formatX 0xF x 0x07
  | .ldKey x => formatX 0xF x 0x0A
  | .ldSdt x => formatX 0xF x 0x15
  | .ldSst x => formatX 0xF x 0x18
  | .addA x => formatX 0xF x 0x1E
  | .ldFnt x => formatX 0xF x 0x29
  | .bcd x => formatX 0xF x 0x33
  | .stM x => formatX 0xF x 0x55
  | .ldM x => formatX 0xF x 0x65

/-- A word as the two bytes memory holds, `w[15:8]` at the lower address (R50, R32). -/
def bytesOfWord (w : Word) : List Byte := [w.extractLsb' 8 8, w.extractLsb' 0 8]

/-- The bytes of an instruction. -/
def encode (i : Instr) : List Byte := bytesOfWord (encodeWord i)

/-! ### The host's numbering of the opcode table -/

/-- The word the host numbers `w`: its low `nbits` bits are given (nbits is 16 for every row of the table), every
bit above them is 0. One instruction is one word, so bits above 15 do not exist. -/
def tableWord (nbits w : Nat) : Word := BitVec.ofNat 16 (w % 2 ^ nbits)

/-- The instruction the decoder reads from the bytes of the word the host numbers `w`. -/
def decodeTableWord (nbits w : Nat) : Option Instr :=
  match decode (bytesOfWord (tableWord nbits w)) with
  | .ok (i, _) => some i
  | .error _ => none

end Sys2Proof
end

