-- ==== Sys2Proof/Machine/Fetch.lean ====
section
/-! DEFINITION. The parts of the step cycle around execute (40_step_cycle.md): fetch, the raising of a decode error,
and what a step does in the waiting and in the halted state. -/

namespace Sys2Proof.Machine

/-- `Fetch()` (R71): the two bytes at `pc` and `pc + 1` as a word, first byte high, and the state with `pc` advanced
by 2; or `AddressOutOfRange`, with `pc` unchanged, when `pc` or `pc + 1` lies above 0xFFF. -/
def fetch (s : State) : Except Error (Word × State) :=
  match s.readBytes s.pc.toNat 2 with
  | some [hi, lo] => .ok (wordOfBytes hi lo, s.setPc (s.pc + 2))
  | _ => .error .addressOutOfRange

/-- An invalid word raises `InvalidOpcode` (R72); the fetch's advance of `pc` is kept. -/
def decodeFailed (_reason : DecodeError) (s : State) : Outcome := raise .invalidOpcode s

/-- `Step()` in `AwaitingKey(r)` changes nothing (R75). -/
def stepWaiting (_r : Reg) (s : State) : Outcome := .next s

/-- `Step()` in `Halted(e)` changes nothing (R76). -/
def stepHalted (_e : Error) (s : State) : Outcome := .next s

/-- The address an instruction is placed at so that the next fetch reads it: `pc` when two bytes fit there, else the
entry point. -/
def fetchAddress (s : State) : Nat := if inSpace s.pc.toNat 2 then s.pc.toNat else Config.progBase

/-- The state with the bytes placed where the next fetch reads, `pc` there and the core running. -/
def placedForFetch (s : State) (bs : List Byte) : State :=
  ((s.setMem (s.mem.writeAll (fetchAddress s) bs)).setPc (BitVec.ofNat 16 (fetchAddress s))).setRun .running

end Sys2Proof.Machine
end

