-- ==== Sys2Proof/Machine/Step.lean ====
section
/-! DEFINITION. `Step()` (40_step_cycle.md R70): fetch, decode and execute exactly one instruction when the core
runs; nothing when it waits or has halted. -/

namespace Sys2Proof.Machine

/-- `Step()` (R70). -/
def step (s : State) : Host.Outcome State Fault Refusal :=
  match s.run with
  | .halted e => stepHalted e s
  | .awaitingKey r => stepWaiting r s
  | .running =>
    match fetch s with
    | .error e => raise e s
    | .ok (w, s') =>
      match decodeWord w with
      | .error reason => decodeFailed reason s'
      | .ok i => exec i s'

/-- The state with the instruction whose bits are `w` (as spec/opcode_table.json numbers them) stored where `step`
fetches next. A program comes to run by `Reset(image)` (log entry 3); this stands for that load. -/
def State.withFetchWord (s : State) (nbits w : Nat) : State := placedForFetch s (bytesOfWord (tableWord nbits w))

end Sys2Proof.Machine
end

