-- ==== Sys2Proof/Machine/Events.lean ====
section
/-! DEFINITION. The other four operations of the interface (00_scope.md R2): `Reset(image)`, `Tick()`, `SetKey(k, p)`
and `Observe()`, the report of `Step()`, and any finite sequence of operations (R3, R4). -/

namespace Sys2Proof.Machine

/-! ### Reset(image) -/

/-- The memory after `Reset`: the font at FONT_BASE, the image at 0x200, 0 elsewhere (70_reset_and_hazards.md R170).
With the default font and the empty image it lists nothing. -/
def resetMemory (font : Vector Byte 80) (image : List Byte) : Memory :=
  (Memory.writeAll [] Config.fontBase font.toList).writeAll Config.progBase image

/-- `Reset(image)` with FONT_TABLE = `font` (70_reset_and_hazards.md R170). An image of more than IMAGE_MAX bytes
leaves the state of the empty image with `run = Halted(ImageTooLarge)` (R171). DESIGN CHOICE of the spec
(92_eei_decisions.md D20), log entry 11. The previous state has no influence; only the model's count of draws goes
on, so that no draw is used twice (log entry 7). -/
def resetTo (font : Vector Byte 80) (image : List Byte) (s : State) : State :=
  if imageFits image then (State.reset.setMem (resetMemory font image)).setDraws s.draws
  else ((State.reset.setMem (resetMemory font [])).setDraws s.draws).setRun (.halted .imageTooLarge)

/-! ### Tick() -/

/-- A timer after one tick: one less, or 0 if it is 0 (60_exceptions.md R150). -/
def ticked (b : Byte) : Byte := BitVec.ofNat 8 (b.toNat - 1)

/-- `Tick()` (60_exceptions.md R150), the same in every run state (R151). -/
def tick (s : State) : State := (s.setDt (ticked s.dt)).setSt (ticked s.st)

/-! ### SetKey(k, p) -/

/-- `SetKey(k, p)` for a key symbol k (60_exceptions.md R153): the flag is stored, and a key-press event (p true,
`keys[k]` false before) completes a pending FX0A. DESIGN CHOICE of the spec (92_eei_decisions.md D13, D14), log
entry 12. -/
def setKey (k : Key) (p : Bool) (s : State) : State :=
  let stored := s.setKeys (s.keys.set k.val p k.isLt)
  match s.run with
  | .awaitingKey r =>
    if p && !s.keyDown k then (stored.setV r (BitVec.ofNat 8 k.val)).setRun .running else stored
  | .running => stored
  | .halted _ => stored

/-- `SetKey(k, p)` for any index: above 15 it is outside the contract and gets no step (60_exceptions.md R154). -/
def setKeyIndex (k : Nat) (p : Bool) (s : State) : Outcome :=
  if h : k < 16 then .next (setKey ⟨k, h⟩ p s) else .refused (.keyIndexOutOfRange k)

/-! ### Observe() -/

/-- What `Observe()` returns (60_exceptions.md R156). -/
structure Observation where
  fb : Screen
  dt : Byte
  st : Byte
  run : RunState
  deriving DecidableEq, Repr

/-- `Observe()`: a snapshot, changing nothing (60_exceptions.md R156). -/
def observe (s : State) : Observation := ⟨s.fb, s.dt, s.st, s.run⟩

/-- The sound output: on while `ST > 0` (60_exceptions.md R157). -/
def soundOn (o : Observation) : Bool := 0 < o.st.toNat

/-! ### Reports -/

/-- What an operation reports to its caller (40_step_cycle.md R77; 60_exceptions.md R143). A report is not state. -/
inductive Report where
  | executed
  | waiting
  | error (e : Error)
  deriving DecidableEq, Repr

/-- The report of the `Step()` that begins in a state whose run state is `before` and ends in one whose run state is
`after` (40_step_cycle.md R70, R74 to R77). The report is not state. -/
def reportOf (before after : RunState) : Report :=
  match before with
  | .halted e => .error e
  | .awaitingKey _ => .waiting
  | .running =>
    match after with
    | .halted e => .error e
    | .awaitingKey _ => .executed
    | .running => .executed

/-- The report of `Step()` in a state; none when the step gives no next state. -/
def stepReport (s : State) : Option Report :=
  match step s with
  | .next t => some (reportOf s.run t.run)
  | .fault _ => none
  | .refused _ => none

/-- What `Reset(image)` reports: the error ImageTooLarge when the image does not fit, and nothing when it does
(60_exceptions.md R143; 70_reset_and_hazards.md R171; 00_scope.md section 4, host table). -/
def resetReport (image : List Byte) : Option Report :=
  if imageFits image then none else some (.error .imageTooLarge)

/-- The number c of a report `Error(c)`, the code of its error (40_step_cycle.md R77; 60_exceptions.md R140). -/
def Report.code : Report → Option Nat
  | .executed => none
  | .waiting => none
  | .error e => some e.code

/-! ### Sequences of operations -/

/-- One operation of the interface (00_scope.md R2). -/
inductive Operation where
  | reset (font : Vector Byte 80) (image : List Byte)
  | step
  | tick
  | setKey (k : Nat) (p : Bool)
  | observe
  deriving DecidableEq, Repr

/-- What one operation does to the state; each runs to completion (00_scope.md R3). -/
def perform (op : Operation) (s : State) : Outcome :=
  match op with
  | .reset font image => .next (resetTo font image s)
  | .step => step s
  | .tick => .next (tick s)
  | .setKey k p => setKeyIndex k p s
  | .observe => .next s

/-- What an operation issued in state s reports: `Step()` always, `Reset(image)` when it fails, the others never
(60_exceptions.md R143, R150; 00_scope.md section 4, host table). -/
def operationReport (op : Operation) (s : State) : Option Report :=
  match op with
  | .reset _ image => resetReport image
  | .step => stepReport s
  | .tick => none
  | .setKey _ _ => none
  | .observe => none

/-- A finite sequence of operations, one after the other, in the order the environment chose (00_scope.md R3, R4);
an operation that gets no step ends it. -/
def performAll : List Operation → State → Outcome
  | [], s => .next s
  | op :: ops, s =>
    match perform op s with
    | .next t => performAll ops t
    | .fault f => .fault f
    | .refused r => .refused r

end Sys2Proof.Machine
end

