-- ==== Sys2Proof/Safety.lean ====
section
/-! DEFINITION. What counts as a safe run, and the invariant of the block. -/

namespace Sys2Proof.Machine

/-- The core has halted with an error (10_state.md R19). -/
def State.isHalted (s : State) : Bool :=
  match s.run with
  | .halted _ => true
  | .awaitingKey _ => false
  | .running => false

/-- A safe state: no error has been raised. A claim about a program takes this as part of what it must prove or
assume (60_exceptions.md R144). -/
def State.safe (s : State) : Bool := !s.isHalted

/-- THE INVARIANT OF THE BLOCK: memory is in canonical form; `I <= 0xFFF` (10_state.md R22); the stack holds at most
16 entries, each at most 0x1000 (R15); `pc` is at most 0x10FE (R23). -/
abbrev State.Inv (s : State) : Prop :=
  s.mem.wf = true ∧ s.i.toNat ≤ 0xFFF ∧ s.stack.length ≤ Config.stackDepth ∧
    (∀ a ∈ s.stack, a.toNat ≤ 0x1000) ∧ s.pc.toNat ≤ 0x10FE

end Sys2Proof.Machine
end

