-- ==== Sys2Proof/Certificates/Slice0/Obligations.lean ====
section
/-! DEFINITION. The statements about the block, for the provers. Each docstring names the rules of spec/ it formalises.
Statements that rest on a decision of the spec (92_eei_decisions.md) or on a free value say so.

In a statement about `exec`, `pc` is already the address of the instruction plus 2 (40_step_cycle.md R71). -/

namespace Sys2Proof.Spec

open Sys2Proof.Machine

/-! ### What may change -/

/-- The parts of the state, the registers one by one. -/
inductive Part where
  | mem
  | v (r : Reg)
  | i
  | pc
  | stack
  | dt
  | st
  | keys
  | fb
  | run
  | draws
  deriving DecidableEq, Repr

/-- FRAME: every part of the state that is not listed is the same in `t` as in `s`; memory is compared byte by byte
through the model's read of one byte. -/
def UnchangedExcept (parts : List Part) (s t : State) : Prop :=
  (Part.mem ∉ parts → ∀ a, t.readByte a = s.readByte a) ∧
  (∀ r, Part.v r ∉ parts → t.getV r = s.getV r) ∧
  (Part.i ∉ parts → t.i = s.i) ∧
  (Part.pc ∉ parts → t.pc = s.pc) ∧
  (Part.stack ∉ parts → t.stack = s.stack) ∧
  (Part.dt ∉ parts → t.dt = s.dt) ∧
  (Part.st ∉ parts → t.st = s.st) ∧
  (Part.keys ∉ parts → t.keys = s.keys) ∧
  (Part.fb ∉ parts → t.fb = s.fb) ∧
  (Part.run ∉ parts → t.run = s.run) ∧
  (Part.draws ∉ parts → t.draws = s.draws)

/-- The word at `pc`, first byte high, as a number (20_memory.md R32). -/
def wordAtPc (s : State) : Nat := (s.readByte s.pc.toNat).toNat * 256 + (s.readByte (s.pc.toNat + 1)).toNat

/-- `exec` gave the next state in which error `e` has been raised and nothing else has changed
(60_exceptions.md R143). -/
def Raises (i : Instr) (s : State) (e : Error) : Prop :=
  ∃ t, exec i s = .next t ∧ t.run = .halted e ∧ UnchangedExcept [.run] s t

/-- `exec` gave a next state that skips when `c` holds and does not when it does not: `pc` alone can change
(41_control_flow.md R83). -/
def SkipsIf (c : Prop) (i : Instr) (s : State) : Prop :=
  ∃ t, exec i s = .next t ∧ (c → t.pc = s.pc + 2) ∧ (¬ c → t.pc = s.pc) ∧ UnchangedExcept [.pc] s t

/-- `exec` gave a next state in which V[x] holds the number `n` and nothing else has changed. -/
def WritesReg (i : Instr) (s : State) (x : Reg) (n : Nat) : Prop :=
  ∃ t, exec i s = .next t ∧ (t.getV x).toNat = n ∧ UnchangedExcept [.v x] s t

/-- `exec` gave a next state in which V[x] holds the number `n`, V[0xF] holds the flag `f` unless x is 0xF, and nothing
else has changed: the flag is written first and the result wins (10_state.md R20). -/
def WritesRegAndFlag (i : Instr) (s : State) (x : Reg) (n f : Nat) : Prop :=
  ∃ t, exec i s = .next t ∧ (t.getV x).toNat = n ∧ (x ≠ flagReg → (t.getV flagReg).toNat = f) ∧
    UnchangedExcept [.v x, .v flagReg] s t

/-- The pixel at column px, row py lies under a 1 bit of the N-row sprite at `I`, drawn at (V[x], V[y]) with each pixel
wrapped by itself; bit 7 of a row byte is its column 0 (44_draw.md R121; 92_eei_decisions.md D15). -/
def UnderSprite (s : State) (x y : Reg) (n : Nibble) (px : Fin 64) (py : Fin 32) : Prop :=
  ∃ r c : Nat, r < n.toNat ∧ c < 8 ∧ px.val = ((s.getV x).toNat + c) % 64 ∧
    py.val = ((s.getV y).toNat + r) % 32 ∧ (s.readByte (s.i.toNat + r)).getLsbD (7 - c) = true

/-- The error an instruction raises in execute, by the table of 60_exceptions.md R140. -/
def executeError (i : Instr) (s : State) : Option Error :=
  match i with
  | .ret => if s.stack.length = 0 then some .stackUnderflow else none
  | .call _ => if 16 ≤ s.stack.length then some .stackOverflow else none
  | .drw _ _ n => if 1 ≤ n.toNat ∧ 0xFFF < s.i.toNat + n.toNat - 1 then some .addressOutOfRange else none
  | .bcd _ => if 0xFFF < s.i.toNat + 2 then some .addressOutOfRange else none
  | .stM x => if 0xFFF < s.i.toNat + x.val then some .addressOutOfRange else none
  | .ldM x => if 0xFFF < s.i.toNat + x.val then some .addressOutOfRange else none
  | _ => none

/-- The registers that an instruction names as its destination: X for most, V[0] to V[X] for FX65, V[0xF] for DXYN and
beside X for the flag writers (10_state.md section 4). -/
def destinations (i : Instr) : List Reg :=
  match i with
  | .ldI x _ | .addI x _ | .ldR x _ | .orR x _ | .andR x _ | .xorR x _ | .rnd x _ | .ldGdt x => [x]
  | .addR x _ | .sub x _ | .shr x _ | .subn x _ | .shl x _ => [x, flagReg]
  | .drw _ _ _ => [flagReg]
  | .ldM x => (List.finRange 16).filter fun k => k.val ≤ x.val
  | _ => []

/-- An operation that leaves a waiting core waiting: `Step`, `Tick`, `Observe`, and the release of a key. -/
def KeepsWaiting (op : Operation) : Prop :=
  op = .step ∨ op = .tick ∨ op = .observe ∨ ∃ k, op = .setKey k false

/-- An operation other than `Reset`. -/
def NotReset (op : Operation) : Prop := ∀ font image, op ≠ .reset font image

/-- An outcome with a change made to its next state. -/
def afterwards (f : State → State) : Outcome → Outcome
  | .next t => .next (f t)
  | .fault e => .fault e
  | .refused r => .refused r

end Sys2Proof.Spec

open Sys2Proof Sys2Proof.Machine Sys2Proof.Spec

/-! ### Encoding -/

/-- Words written out from the encodings of 30_encoding.md decode to the instructions they stand for, at least one a
family; edge words that spell none are refused. A sanity statement. -/
def Obligations.DecodesWordsOfTheSpec : Prop :=
  decodeWord 0x00E0 = .ok .cls ∧ decodeWord 0x00EE = .ok .ret ∧ decodeWord 0x1234 = .ok (.jp 0x234) ∧
  decodeWord 0x332A = .ok (.seI 3 0x2A) ∧ decodeWord 0x9120 = .ok (.sneR 1 2) ∧
  decodeWord 0x6A7F = .ok (.ldI 0xA 0x7F) ∧ decodeWord 0x83A4 = .ok (.addR 3 0xA) ∧
  decodeWord 0xA2F0 = .ok (.ldA 0x2F0) ∧ decodeWord 0xF265 = .ok (.ldM 2) ∧
  decodeWord 0xD125 = .ok (.drw 1 2 5) ∧ decodeWord 0xF507 = .ok (.ldGdt 5) ∧
  decodeWord 0xE29E = .ok (.skp 2) ∧ decodeWord 0xF30A = .ok (.ldKey 3) ∧
  decodeWord 0x0000 = .error (.invalidOpcode 0x0000) ∧ decodeWord 0x01E0 = .error (.invalidOpcode 0x01E0) ∧
  decodeWord 0x5121 = .error (.invalidOpcode 0x5121) ∧ decodeWord 0x812F = .error (.invalidOpcode 0x812F)

/-- Decoding the word of any instruction, and the bytes of any instruction with bytes after them, gives the
instruction back, with every operand at every value (30_encoding.md R52, R54, R62 and section 7). -/
def Obligations.DecodeOfEncode : Prop :=
  ∀ (i : Instr) (rest : List Byte),
    decodeWord (encodeWord i) = .ok i ∧ decode (encode i ++ rest) = .ok (i, rest)

/-- A word that decodes is the word of the instruction it decodes to: no two words share an instruction
(30_encoding.md R55, R59). -/
def Obligations.EncodeOfDecode : Prop :=
  ∀ (w : Word) (i : Instr), decodeWord w = .ok i → encodeWord i = w

/-- R55: the opcode map has 34 rows; a word that decodes is covered by exactly the row of its instruction, and a word
that does not decode by none. -/
def Obligations.DecodeAgreesWithOpcodeMap : Prop :=
  opcodeTable.length = 34 ∧
  ∀ w : Word,
    (∀ i, decodeWord w = .ok i → rowsCovering w = [i.rowNumber]) ∧
    (∀ e, decodeWord w = .error e → rowsCovering w = [])

/-- The words that spell no instruction are those of the table under 30_encoding.md R60, family by family. In family
0x0 the whole word is compared: the spec's decision 92_eei_decisions.md D18. -/
def Obligations.InvalidWordsAreTheSpecs : Prop :=
  ∀ w : Word, decodeWord w = .error (.invalidOpcode w) ↔
    let n := w.toNat
    (n / 4096 = 0x0 ∧ n ≠ 0x00E0 ∧ n ≠ 0x00EE) ∨
    (n / 4096 = 0x5 ∧ n % 16 ≠ 0) ∨
    (n / 4096 = 0x8 ∧ n % 16 ∈ [0x8, 0x9, 0xA, 0xB, 0xC, 0xD, 0xF]) ∨
    (n / 4096 = 0x9 ∧ n % 16 ≠ 0) ∨
    (n / 4096 = 0xE ∧ n % 256 ∉ [0x9E, 0xA1]) ∨
    (n / 4096 = 0xF ∧ n % 256 ∉ [0x07, 0x0A, 0x15, 0x18, 0x1E, 0x29, 0x33, 0x55, 0x65])

/-! ### Reset -/

/-- The state after reset, element by element (10_state.md R24): registers, I, timers 0, pc 0x200, stack empty, keys
up, pixels off, Running; memory holds the default font at 0x050 (spec's decisions D4, D5) and 0 elsewhere. -/
def Obligations.ResetStateValues : Prop :=
  (∀ r, State.reset.getV r = 0) ∧ State.reset.i = 0 ∧ State.reset.pc = 0x200 ∧ State.reset.stack = [] ∧
  State.reset.dt = 0 ∧ State.reset.st = 0 ∧ (∀ k, State.reset.keyDown k = false) ∧
  (∀ x y, State.reset.fb.pixel x y = false) ∧ State.reset.run = .running ∧
  (∀ a, a < 0x050 ∨ 0x0A0 ≤ a → State.reset.readByte a = 0) ∧
  (∀ g k, g < 16 → k < 5 →
    State.reset.readByte (0x050 + 5 * g + k) = (Config.fontGlyphs.getD g []).getD k 0)

/-- `Reset(image)` with any font table and any image that fits, from any state: the image stands at 0x200, the font at
FONT_BASE, 0 elsewhere, and every other element is that of the reset state; nothing of the earlier state survives
(70_reset_and_hazards.md R170; FONT_BASE is the spec's decision D4). Two clauses are THE MODEL'S CHOICE and not R170's: that
this Reset reports nothing (log entry 19, read from the host table of 00_scope.md section 4), and that the model's own
counter `draws`, no state of the spec, is exempt and goes on (log entry 7). -/
def Obligations.ResetPlacesFontAndImage : Prop :=
  ∀ (font : Vector Byte 80) (image : List Byte) (s : State), image.length ≤ 3584 →
    ∃ t, perform (.reset font image) s = .next t ∧
      (∀ k (h : k < image.length), t.readByte (0x200 + k) = image[k]) ∧
      (∀ k (h : k < 80), t.readByte (0x050 + k) = font[k]) ∧
      (∀ a, a < 0x050 ∨ (0x0A0 ≤ a ∧ a < 0x200) ∨ 0x200 + image.length ≤ a → t.readByte a = 0) ∧
      UnchangedExcept [.mem, .draws] State.reset t ∧ operationReport (.reset font image) s = none

/-- An image of more than 3584 bytes: no byte of it is copied, and the block is left in the state of the empty image but
for `run = Halted(ImageTooLarge)` (70_reset_and_hazards.md R171; the spec's decision D20), and the Reset reports
Error(ImageTooLarge) to its caller, code 1 (60_exceptions.md R143; the number is the spec's decision D6). -/
def Obligations.ResetWithLargeImageHalts : Prop :=
  ∀ (font : Vector Byte 80) (image : List Byte) (s : State), 3584 < image.length →
    ∃ t u, perform (.reset font image) s = .next t ∧ perform (.reset font []) s = .next u ∧
      t.run = .halted .imageTooLarge ∧ UnchangedExcept [.run] u t ∧
      operationReport (.reset font image) s = some (.error .imageTooLarge) ∧
      (Report.error .imageTooLarge).code = some 1

/-! ### The step cycle -/

/-- A STEP RUNS THE DECODED INSTRUCTION (40_step_cycle.md R70, R71, R73): when the core runs, two bytes fit at `pc`, and
the word there decodes to `i`, the step is the execution of `i` with `pc` advanced by 2. -/
def Obligations.StepRunsDecodedInstruction : Prop :=
  ∀ (s : State) (i : Instr), s.run = .running → s.pc.toNat ≤ 0xFFE →
    decodeWord (wordOfBytes (s.readByte s.pc.toNat) (s.readByte (s.pc.toNat + 1))) = .ok i →
    step s = exec i (s.setPc (s.pc + 2))

/-- R71: fetch reads the two bytes at `pc` and `pc + 1`, the first as the high-order byte, and advances `pc` by 2; when
`pc` or `pc + 1` exceeds 0xFFF it fails with AddressOutOfRange and the running step raises that error, with `pc` and
everything else unchanged. -/
def Obligations.FetchReadsBigEndianOrFails : Prop :=
  ∀ s : State,
    (s.pc.toNat ≤ 0xFFE → ∃ w t, fetch s = .ok (w, t) ∧ w.toNat = wordAtPc s ∧
      t.pc.toNat = s.pc.toNat + 2 ∧ UnchangedExcept [.pc] s t) ∧
    (0xFFE < s.pc.toNat → fetch s = .error .addressOutOfRange ∧
      (s.run = .running → ∃ t, step s = .next t ∧ t.run = .halted .addressOutOfRange ∧
        UnchangedExcept [.run] s t))

/-- A word that does not decode raises InvalidOpcode: the fetch's advance of `pc` is kept and nothing else changes
(40_step_cycle.md R72; the spec's decision D7). -/
def Obligations.InvalidWordRaises : Prop :=
  ∀ (s : State) (e : DecodeError), s.run = .running → s.pc.toNat ≤ 0xFFE →
    decodeWord (wordOfBytes (s.readByte s.pc.toNat) (s.readByte (s.pc.toNat + 1))) = .error e →
    ∃ t, step s = .next t ∧ t.run = .halted .invalidOpcode ∧ t.pc.toNat = s.pc.toNat + 2 ∧
      UnchangedExcept [.pc, .run] s t

/-- In `AwaitingKey` and in `Halted` a step changes nothing, and reports Waiting or the same error again; a step of a
running core reports the error it raises, and Executed when it raises none (40_step_cycle.md R75 to R77; the spec's
decisions D8, D14, D24). -/
def Obligations.StepReportsAndFrozenStates : Prop :=
  (∀ s r, s.run = .awaitingKey r → step s = .next s ∧ stepReport s = some .waiting) ∧
  (∀ s e, s.run = .halted e → step s = .next s ∧ stepReport s = some (.error e)) ∧
  (∀ s t, s.run = .running → step s = .next t →
    (∀ e, t.run = .halted e → stepReport s = some (.error e)) ∧
    ((∀ e, t.run ≠ .halted e) → stepReport s = some .executed))

/-- When memory at `pc` holds the two bytes of instruction `i`, high byte first, a running step executes `i`
(30_encoding.md R50; 20_memory.md R32; 40_step_cycle.md R70). -/
def Obligations.StepRunsEncodedBytes : Prop :=
  ∀ (s : State) (i : Instr), s.run = .running → s.pc.toNat ≤ 0xFFE →
    [s.readByte s.pc.toNat, s.readByte (s.pc.toNat + 1)] = encode i →
    step s = exec i (s.setPc (s.pc + 2))

/-- A STORE IS SEEN BY THE NEXT FETCH (20_memory.md R42): when FX55 stores the two bytes of instruction `i`, held in
V[0] and V[1], at the address of the next instruction, the next step executes `i`. -/
def Obligations.StoredInstructionRunsNext : Prop :=
  ∀ (s : State) (x : Reg) (i : Instr), s.run = .running → 1 ≤ x.val → s.i = s.pc → s.i.toNat + x.val ≤ 0xFFF →
    [s.getV 0, s.getV 1] = encode i →
    ∃ t, exec (.stM x) s = .next t ∧ step t = exec i (t.setPc (s.pc + 2))

/-- Every instruction and every step gives a next state, from every state, errors included. That an error is a next state
with run = Halted(e), and that the machine therefore has no fault, is THE MODEL'S CHOICE, log entry 1 (DEDUCED from the
entry of an error in 60_exceptions.md section 3; section 4 there advises to treat Halted as a fault, which a claim does
through State.safe). -/
def Obligations.EveryStepGivesNextState : Prop :=
  (∀ (i : Instr) (s : State), ∃ t, exec i s = .next t) ∧ ∀ s : State, ∃ t, step s = .next t

/-! ### Control flow -/

/-- R81: `pc` becomes NNN, zero-extended; nothing else changes. -/
def Obligations.JumpSetsPc : Prop :=
  ∀ (nnn : Addr) (s : State),
    ∃ t, exec (.jp nnn) s = .next t ∧ t.pc.toNat = nnn.toNat ∧ UnchangedExcept [.pc] s t

/-- `pc` becomes NNN + V[0] in 16 bits, not reduced to 12 (41_control_flow.md R87; the spec's decision D19). -/
def Obligations.IndexedJumpAddsV0 : Prop :=
  ∀ (nnn : Addr) (s : State),
    ∃ t, exec (.jpV0 nnn) s = .next t ∧ t.pc.toNat = nnn.toNat + (s.getV 0).toNat ∧ UnchangedExcept [.pc] s t

/-- With fewer than 16 entries a call pushes `pc`, the address after the call, and jumps; with 16 it raises
StackOverflow and pushes nothing (41_control_flow.md R82; STACK_DEPTH is the spec's decision D3). -/
def Obligations.CallPushesReturnAddress : Prop :=
  ∀ (nnn : Addr) (s : State),
    (s.stack.length < 16 → ∃ t, exec (.call nnn) s = .next t ∧ t.stack = s.stack ++ [s.pc] ∧
      t.pc.toNat = nnn.toNat ∧ UnchangedExcept [.pc, .stack] s t) ∧
    (16 ≤ s.stack.length → Raises (.call nnn) s .stackOverflow)

/-- R80: a return pops the most recently pushed address into `pc` as it stands; on an empty stack it raises
StackUnderflow. -/
def Obligations.ReturnPopsStack : Prop :=
  ∀ s : State,
    (∀ l a, s.stack = l ++ [a] → ∃ t, exec .ret s = .next t ∧ t.pc = a ∧ t.stack = l ∧
      UnchangedExcept [.pc, .stack] s t) ∧
    (s.stack = [] → Raises .ret s .stackUnderflow)

/-- A call followed by a return gives back the state after the call's fetch, `pc` at the instruction after the call
(41_control_flow.md R80, R82, corner cases). -/
def Obligations.CallThenReturnRestores : Prop :=
  ∀ (nnn : Addr) (s : State) (p : Word), s.stack.length < 16 →
    ∃ t, exec (.call nnn) s = .next t ∧ exec .ret (t.setPc p) = .next s

/-- R83, R84: 3XNN skips exactly when V[X] = NN, 4XNN exactly when it is not. -/
def Obligations.SkipsOnImmediate : Prop :=
  ∀ (x : Reg) (nn : Byte) (s : State),
    SkipsIf (s.getV x = nn) (.seI x nn) s ∧ SkipsIf (s.getV x ≠ nn) (.sneI x nn) s

/-- R85, R86: 5XY0 skips exactly when V[X] = V[Y], 9XY0 exactly when it is not. -/
def Obligations.SkipsOnRegisters : Prop :=
  ∀ (x y : Reg) (s : State),
    SkipsIf (s.getV x = s.getV y) (.seR x y) s ∧ SkipsIf (s.getV x ≠ s.getV y) (.sneR x y) s

/-- EX9E skips exactly when the key named by the low nibble of V[X] is pressed, EXA1 exactly when it is not
(46_keyboard.md R135, R136; the low nibble is the spec's decision D12). -/
def Obligations.SkipsOnKey : Prop :=
  ∀ (x : Reg) (k : Key) (s : State), k.val = (s.getV x).toNat % 16 →
    SkipsIf (s.keyDown k = true) (.skp x) s ∧ SkipsIf (s.keyDown k = false) (.sknp x) s

/-! ### Arithmetic and logic -/

/-- R90, R91, R92: 6XNN loads NN, 7XNN adds NN modulo 256 and touches no flag, 8XY0 copies V[Y]. -/
def Obligations.LoadAddCopy : Prop :=
  ∀ (x y : Reg) (nn : Byte) (s : State),
    WritesReg (.ldI x nn) s x nn.toNat ∧
    WritesReg (.addI x nn) s x (((s.getV x).toNat + nn.toNat) % 256) ∧
    WritesReg (.ldR x y) s x (s.getV y).toNat

/-- R93, R94, R95: the bitwise operations, bit by bit; V[0xF] is written only as the destination X. -/
def Obligations.BitwiseLogic : Prop :=
  ∀ (x y : Reg) (s : State),
    (∃ t, exec (.orR x y) s = .next t ∧ UnchangedExcept [.v x] s t ∧
      ∀ k, k < 8 → (t.getV x).getLsbD k = ((s.getV x).getLsbD k || (s.getV y).getLsbD k)) ∧
    (∃ t, exec (.andR x y) s = .next t ∧ UnchangedExcept [.v x] s t ∧
      ∀ k, k < 8 → (t.getV x).getLsbD k = ((s.getV x).getLsbD k && (s.getV y).getLsbD k)) ∧
    (∃ t, exec (.xorR x y) s = .next t ∧ UnchangedExcept [.v x] s t ∧
      ∀ k, k < 8 → (t.getV x).getLsbD k = ((s.getV x).getLsbD k ^^ (s.getV y).getLsbD k))

/-- V[X] becomes the sum modulo 256 and VF the carry; with X = 0xF the sum wins (42_alu.md R97, R98; 10_state.md R20).
With Y = 0xF the addend is the old V[0xF]: operands are read first, the spec's decision D11. -/
def Obligations.AddRegisterWithCarry : Prop :=
  ∀ (x y : Reg) (s : State),
    WritesRegAndFlag (.addR x y) s x (((s.getV x).toNat + (s.getV y).toNat) % 256)
      (if 255 < (s.getV x).toNat + (s.getV y).toNat then 1 else 0)

/-- The two subtractions, each with 1 for no borrow; with X = 0xF the difference wins (42_alu.md R97, R99, R101). With
Y = 0xF the operand is the old V[0xF], the spec's decision D11. -/
def Obligations.SubtractWithBorrow : Prop :=
  ∀ (x y : Reg) (s : State),
    WritesRegAndFlag (.sub x y) s x (((s.getV x).toNat + 256 - (s.getV y).toNat) % 256)
      (if (s.getV y).toNat ≤ (s.getV x).toNat then 1 else 0) ∧
    WritesRegAndFlag (.subn x y) s x (((s.getV y).toNat + 256 - (s.getV x).toNat) % 256)
      (if (s.getV x).toNat ≤ (s.getV y).toNat then 1 else 0)

/-- 8XY6 shifts V[Y] right by one into V[X], VF the bit shifted out; 8XYE shifts V[Y] left; with X = 0xF the result wins
(42_alu.md R97, R100, R102; 90_conflicts.md C2). With Y = 0xF the source is the old V[0xF], the spec's decision D11. -/
def Obligations.ShiftSourceIntoX : Prop :=
  ∀ (x y : Reg) (s : State),
    WritesRegAndFlag (.shr x y) s x ((s.getV y).toNat / 2) ((s.getV y).toNat % 2) ∧
    WritesRegAndFlag (.shl x y) s x ((s.getV y).toNat * 2 % 256) ((s.getV y).toNat / 128)

/-- CXNN takes one byte from the random source and leaves it ANDed with NN in V[X]; no bit outside NN is set; the next
execution takes a fresh byte (42_alu.md R103; 60_exceptions.md R158). The byte is the model's free value
Config.randomByte (log entry 7): the statement holds whatever it is. -/
def Obligations.RandomByteIsMasked : Prop :=
  ∀ (x : Reg) (nn : Byte) (s : State),
    ∃ t, exec (.rnd x nn) s = .next t ∧ t.getV x = Config.randomByte s.draws &&& nn ∧
      (∀ k, k < 8 → nn.getLsbD k = false → (t.getV x).getLsbD k = false) ∧
      t.draws = s.draws + 1 ∧ UnchangedExcept [.v x, .draws] s t

/-! ### The address register and memory -/

/-- R110, R111: ANNN loads NNN; FX1E adds V[X] modulo 0x1000 and touches no flag. -/
def Obligations.AddressRegisterLoadAndAdd : Prop :=
  ∀ (nnn : Addr) (x : Reg) (s : State),
    (∃ t, exec (.ldA nnn) s = .next t ∧ t.i.toNat = nnn.toNat ∧ UnchangedExcept [.i] s t) ∧
    (∃ t, exec (.addA x) s = .next t ∧ t.i.toNat = (s.i.toNat + (s.getV x).toNat) % 0x1000 ∧
      UnchangedExcept [.i] s t)

/-- FX29 sets I to 0x050 + 5 * (low nibble of V[X]) (43_memory_ops.md R112; FONT_BASE is the spec's decision D4), and
in memory as reset leaves it the five bytes from there are that glyph's rows. -/
def Obligations.GlyphAddressOfLowNibble : Prop :=
  ∀ (x : Reg) (s : State),
    ∃ t, exec (.ldFnt x) s = .next t ∧ t.i.toNat = 0x050 + 5 * ((s.getV x).toNat % 16) ∧
      UnchangedExcept [.i] s t ∧
      ∀ k, k < 5 → State.reset.readByte (t.i.toNat + k) =
        (Config.fontGlyphs.getD ((s.getV x).toNat % 16) []).getD k 0

/-- R113: FX33 stores the hundreds, tens and ones of V[X] at I, I + 1, I + 2, and changes no other byte and nothing
else; when I + 2 exceeds 0xFFF it raises AddressOutOfRange and stores nothing. -/
def Obligations.DecimalDigitsStored : Prop :=
  ∀ (x : Reg) (s : State),
    (s.i.toNat + 2 ≤ 0xFFF → ∃ t, exec (.bcd x) s = .next t ∧
      (t.readByte s.i.toNat).toNat = (s.getV x).toNat / 100 ∧
      (t.readByte (s.i.toNat + 1)).toNat = (s.getV x).toNat / 10 % 10 ∧
      (t.readByte (s.i.toNat + 2)).toNat = (s.getV x).toNat % 10 ∧
      (∀ a, a < s.i.toNat ∨ s.i.toNat + 2 < a → t.readByte a = s.readByte a) ∧
      UnchangedExcept [.mem] s t) ∧
    (0xFFF < s.i.toNat + 2 → Raises (.bcd x) s .addressOutOfRange)

/-- R114: FX55 stores V[0] to V[X] from I up, and changes no other byte and nothing else, I included; when I + X exceeds
0xFFF it raises AddressOutOfRange and stores nothing. -/
def Obligations.RegistersStored : Prop :=
  ∀ (x : Reg) (s : State),
    (s.i.toNat + x.val ≤ 0xFFF → ∃ t, exec (.stM x) s = .next t ∧
      (∀ k : Reg, k.val ≤ x.val → t.readByte (s.i.toNat + k.val) = s.getV k) ∧
      (∀ a, a < s.i.toNat ∨ s.i.toNat + x.val < a → t.readByte a = s.readByte a) ∧
      UnchangedExcept [.mem] s t) ∧
    (0xFFF < s.i.toNat + x.val → Raises (.stM x) s .addressOutOfRange)

/-- R115: FX65 loads V[0] to V[X] from I up and changes nothing else, the registers above X and I included; when I + X
exceeds 0xFFF it raises AddressOutOfRange and loads nothing. -/
def Obligations.RegistersLoaded : Prop :=
  ∀ (x : Reg) (s : State),
    (s.i.toNat + x.val ≤ 0xFFF → ∃ t, exec (.ldM x) s = .next t ∧
      (∀ k : Reg, k.val ≤ x.val → t.getV k = s.readByte (s.i.toNat + k.val)) ∧
      UnchangedExcept ((List.finRange 16).filterMap fun k => if k.val ≤ x.val then some (.v k) else none) s t) ∧
    (0xFFF < s.i.toNat + x.val → Raises (.ldM x) s .addressOutOfRange)

/-- Storing V[0] to V[X] and loading them again from the same address, with any register contents between, gives the
stored values back, and I is unchanged by both (43_memory_ops.md R114, R115, corner cases). -/
def Obligations.StoreThenLoadGivesBack : Prop :=
  ∀ (x : Reg) (s : State) (v : Vector Byte 16) (p : Word), s.i.toNat + x.val ≤ 0xFFF →
    ∃ t u, exec (.stM x) s = .next t ∧ exec (.ldM x) ((t.setRegs v).setPc p) = .next u ∧
      (∀ k : Reg, k.val ≤ x.val → u.getV k = s.getV k) ∧ u.i = s.i

/-- The canonical form is canonical: two memories in it that read alike are the same list (the model's choice of data,
log entry 2; 20_memory.md R37, R40). -/
def Obligations.MemoryFormIsCanonical : Prop :=
  ∀ m m' : Memory, m.wf = true → m'.wf = true → (∀ a, m.read a = m'.read a) → m = m'

/-! ### The framebuffer -/

/-- R120: 00E0 turns every pixel off and changes nothing else, V[0xF] included. -/
def Obligations.ClearScreen : Prop :=
  ∀ s : State, ∃ t, exec .cls s = .next t ∧ (∀ x y, t.fb.pixel x y = false) ∧ UnchangedExcept [.fb] s t

/-- DXYN inverts exactly the pixels under a 1 bit of the sprite, each wrapped by itself, and sets VF to 1 exactly when one
of them was on; no rows are drawn and nothing is read when N = 0 (44_draw.md R121; the bit order is the spec's decision
D15; with X or Y = 0xF the position is the old V[0xF], the spec's decision D11). -/
def Obligations.DrawXorsSprite : Prop :=
  ∀ (x y : Reg) (n : Nibble) (s : State), n.toNat = 0 ∨ s.i.toNat + n.toNat - 1 ≤ 0xFFF →
    ∃ t, exec (.drw x y n) s = .next t ∧
      (∀ px py, UnderSprite s x y n px py → t.fb.pixel px py = !s.fb.pixel px py) ∧
      (∀ px py, ¬ UnderSprite s x y n px py → t.fb.pixel px py = s.fb.pixel px py) ∧
      ((∃ px py, UnderSprite s x y n px py ∧ s.fb.pixel px py = true) → t.getV flagReg = 1) ∧
      ((∀ px py, UnderSprite s x y n px py → s.fb.pixel px py = false) → t.getV flagReg = 0) ∧
      UnchangedExcept [.fb, .v flagReg] s t

/-- A sprite of which a row lies above 0xFFF is not drawn: AddressOutOfRange, V[0xF] and the pixels unchanged
(44_draw.md R121; 20_memory.md R35 and the spec's decision D7). -/
def Obligations.DrawBeyondMemoryRaises : Prop :=
  ∀ (x y : Reg) (n : Nibble) (s : State), 1 ≤ n.toNat → 0xFFF < s.i.toNat + n.toNat - 1 →
    Raises (.drw x y n) s .addressOutOfRange

/-- Drawing the same sprite twice at the same place gives the first framebuffer back, and the second flag is 1 exactly
when the first draw turned a pixel on (44_draw.md R121, corner cases; the place is the same when X and Y are not the
flag register). -/
def Obligations.DrawTwiceRestores : Prop :=
  ∀ (x y : Reg) (n : Nibble) (s : State) (p : Word), x ≠ flagReg → y ≠ flagReg →
    n.toNat = 0 ∨ s.i.toNat + n.toNat - 1 ≤ 0xFFF →
    ∃ t u, exec (.drw x y n) s = .next t ∧ exec (.drw x y n) (t.setPc p) = .next u ∧ u.fb = s.fb ∧
      (u.getV flagReg = 1 ↔ ∃ px py, s.fb.pixel px py = false ∧ t.fb.pixel px py = true)

/-! ### Timers -/

/-- R130, R131: FX07 reads the delay timer, FX15 sets it; nothing else changes. -/
def Obligations.DelayTimerReadAndWrite : Prop :=
  ∀ (x : Reg) (s : State),
    WritesReg (.ldGdt x) s x s.dt.toNat ∧
    (∃ t, exec (.ldSdt x) s = .next t ∧ t.dt = s.getV x ∧ UnchangedExcept [.dt] s t)

/-- FX18 sets the sound timer from V[X], any value; no instruction reads ST: whatever ST holds, an instruction has the
same outcome but for ST itself; the outside sees ST through Observe, and the audio cue is on while ST > 0 (45_timer.md
R132). For CXNN the outcomes compared are those WITH THE SAME RANDOM BYTE: that equal counts of draws give equal bytes is
the model's choice, log entry 7; 60_exceptions.md R158 ties a draw to no state. -/
def Obligations.SoundTimerSetAndNeverRead : Prop :=
  (∀ (x : Reg) (s : State), ∃ t, exec (.ldSst x) s = .next t ∧ t.st = s.getV x ∧ UnchangedExcept [.st] s t) ∧
  (∀ (i : Instr) (s : State) (b : Byte), (∀ x, i ≠ .ldSst x) →
    exec i (s.setSt b) = afterwards (fun t => t.setSt b) (exec i s)) ∧
  (∀ (x : Reg) (s : State) (b : Byte), exec (.ldSst x) (s.setSt b) = exec (.ldSst x) s) ∧
  (∀ s : State, (observe s).st = s.st ∧ (soundOn (observe s) = true ↔ 0 < s.st.toNat))

/-- One tick takes 1 from each timer independently, floored at 0, changes nothing else and reports nothing (60_exceptions.md
R150); it is the same in every run state (R151; that it counts in `Halted` too is the spec's decision D8). -/
def Obligations.TickDecrementsBothTimers : Prop :=
  ∀ s : State, ∃ t, perform .tick s = .next t ∧ t.dt.toNat = s.dt.toNat - 1 ∧ t.st.toNat = s.st.toNat - 1 ∧
    UnchangedExcept [.dt, .st] s t ∧ operationReport .tick s = none

/-- After k ticks a timer holds max(v - k, 0), and no instruction but FX15 and FX18 changes a timer
(60_exceptions.md R152; 45_timer.md R130). -/
def Obligations.TimersCountDown : Prop :=
  (∀ (k : Nat) (s : State), ∃ t, performAll (List.replicate k .tick) s = .next t ∧
    t.dt.toNat = s.dt.toNat - k ∧ t.st.toNat = s.st.toNat - k) ∧
  (∀ (i : Instr) (s t : State), exec i s = .next t →
    ((∀ x, i ≠ .ldSdt x) → t.dt = s.dt) ∧ ((∀ x, i ≠ .ldSst x) → t.st = s.st))

/-- A tick may fall before or after an instruction that touches no timer without a difference: the interleaving of ticks
and steps matters to FX07, FX15 and FX18 alone (00_scope.md R4; 60_exceptions.md R145, R150). For CXNN the two orders
compared are those WITH THE SAME RANDOM BYTE: that equal counts of draws give equal bytes is the model's choice, log
entry 7; R158 ties a draw neither to the state nor to time. -/
def Obligations.TickCommutesWithExecution : Prop :=
  ∀ (i : Instr) (s : State), (∀ x, i ≠ .ldGdt x) → (∀ x, i ≠ .ldSdt x) → (∀ x, i ≠ .ldSst x) →
    exec i (tick s) = afterwards tick (exec i s)

/-! ### Keyboard -/

/-- FX0A sets `run` to AwaitingKey(X) and does nothing else: V[X] is not written yet and `pc` stays at the next
instruction (46_keyboard.md R137; the spec's decisions D13, D14). -/
def Obligations.KeyWaitIsEntered : Prop :=
  ∀ (x : Reg) (s : State), ∃ t, exec (.ldKey x) s = .next t ∧ t.run = .awaitingKey x ∧ UnchangedExcept [.run] s t

/-- SetKey stores the flag of one key; the press of a key that was up completes a pending FX0A, with the key's index in
the waiting register; a held key pressed again, a release, and any SetKey when the core does not wait complete nothing;
an index above 15 gets no step (60_exceptions.md R153 to R155; the spec's decisions D13, D14, D23). -/
def Obligations.SetKeyStoresAndCompletes : Prop :=
  (∀ (k : Key) (p : Bool) (s : State), ∃ t, perform (.setKey k.val p) s = .next t ∧
    t.keyDown k = p ∧ (∀ k', k' ≠ k → t.keyDown k' = s.keyDown k') ∧
    (∀ r, s.run = .awaitingKey r → p = true → s.keyDown k = false →
      (t.getV r).toNat = k.val ∧ t.run = .running ∧ UnchangedExcept [.keys, .v r, .run] s t) ∧
    ((∀ r, s.run ≠ .awaitingKey r) ∨ p = false ∨ s.keyDown k = true → UnchangedExcept [.keys] s t)) ∧
  (∀ (k : Nat) (p : Bool) (s : State), 16 ≤ k → perform (.setKey k p) s = .refused (.keyIndexOutOfRange k))

/-- While no key is pressed the wait goes on: any sequence of steps, ticks, observations and releases of keys leaves the
core waiting for the same register, with everything but the timers and the key flags unchanged (60_exceptions.md R161;
the spec's decisions D13, D14). -/
def Obligations.KeyWaitLasts : Prop :=
  ∀ (ops : List Operation) (s t : State) (r : Reg), (∀ op ∈ ops, KeepsWaiting op) → s.run = .awaitingKey r →
    performAll ops s = .next t → t.run = .awaitingKey r ∧ UnchangedExcept [.dt, .st, .keys] s t

/-- The key flags matter to EX9E and EXA1 alone: any other instruction has the same outcome whatever keys are down
(10_state.md R17; 46_keyboard.md). For CXNN the outcomes compared are those WITH THE SAME RANDOM BYTE: that equal counts of
draws give equal bytes is the model's choice, log entry 7; 60_exceptions.md R158 ties a draw to no state. -/
def Obligations.KeysMatterOnlyToKeySkips : Prop :=
  ∀ (i : Instr) (s : State) (keys : Vector Bool 16), (∀ x, i ≠ .skp x) → (∀ x, i ≠ .sknp x) →
    exec i (s.setKeys keys) = afterwards (fun t => t.setKeys keys) (exec i s)

/-! ### The whole block -/

/-- THE INVARIANT IS KEPT BY EVERY STEP, from every state that meets it: memory in canonical form, I <= 0xFFF
(10_state.md R22), at most 16 stack entries of at most 0x1000 (R15; the 16 is the spec's decision D3), pc <= 0x10FE (R23;
that pc is not masked is the spec's decision D19). The canonical form of memory is THE MODEL'S CHOICE of data, log entry 2,
and no rule of the spec. -/
def Obligations.StepKeepsInvariant : Prop :=
  ∀ s t : State, s.Inv → step s = .next t → t.Inv

/-- The invariant is kept by every sequence of operations, in whatever order the environment issues them
(00_scope.md R2 to R4; the order is the spec's decisions D1, D2). Its bounds rest on the spec's decisions D3 (16 stack
entries) and D19 (pc up to 0x10FE); the canonical form of memory in it is THE MODEL'S CHOICE of data, log entry 2. -/
def Obligations.OperationsKeepInvariant : Prop :=
  ∀ (ops : List Operation) (s t : State), s.Inv → performAll ops s = .next t → t.Inv

/-- The state after reset meets the invariant: I, stack and pc at their reset values (10_state.md R24) are within its
bounds, of which 16 stack entries is the spec's decision D3 and pc up to 0x10FE its decision D19; and memory, which lists
nothing, has the canonical form, THE MODEL'S CHOICE of data, log entry 2. -/
def Obligations.ResetMeetsInvariant : Prop := State.reset.Inv

/-- Which instructions write which element (40_step_cycle.md section 7; 10_state.md section 1): no instruction writes the
key flags; memory only FX33 and FX55; pixels only 00E0 and DXYN; the timers only FX15 and FX18; I only ANNN, FX1E and
FX29; the stack only 2NNN and 00EE; the random source is asked only by CXNN. -/
def Obligations.OnlyTheseInstructionsWrite : Prop :=
  ∀ (i : Instr) (s t : State), exec i s = .next t →
    t.keys = s.keys ∧
    ((∃ a, t.readByte a ≠ s.readByte a) → ∃ x, i = .bcd x ∨ i = .stM x) ∧
    (t.fb ≠ s.fb → i = .cls ∨ ∃ x y n, i = .drw x y n) ∧
    (t.dt ≠ s.dt → ∃ x, i = .ldSdt x) ∧
    (t.st ≠ s.st → ∃ x, i = .ldSst x) ∧
    (t.i ≠ s.i → (∃ nnn, i = .ldA nnn) ∨ ∃ x, i = .addA x ∨ i = .ldFnt x) ∧
    (t.stack ≠ s.stack → i = .ret ∨ ∃ nnn, i = .call nnn) ∧
    (t.draws ≠ s.draws → ∃ x nn, i = .rnd x nn)

/-- A register changes only when the instruction names it as a destination (the row of V in the table of 10_state.md
section 1, for all sixteen): V[0xF] in particular only by the five flag writers, by DXYN, or as the X (or one of V[0] to
V[X]) of an instruction that writes registers (10_state.md R12 and section 4). -/
def Obligations.OnlyDestinationsAreWritten : Prop :=
  ∀ (i : Instr) (s t : State) (r : Reg), exec i s = .next t → r ∉ destinations i → t.getV r = s.getV r

/-- Errors are synchronous and precise (60_exceptions.md R141). A running step that raises an error has changed nothing but
`run` and the fetch's advance of `pc` (the spec's decision D7); and no external event raises an error. -/
def Obligations.ErrorsArePrecise : Prop :=
  (∀ (s t : State) (e : Error), s.run = .running → step s = .next t → t.run = .halted e →
    UnchangedExcept [.run, .pc] s t ∧ (t.pc = s.pc ∨ t.pc = s.pc + 2)) ∧
  (∀ (s t : State) (e : Error) (op : Operation), op = .tick ∨ op = .observe ∨ (∃ k p, op = .setKey k p) →
    perform op s = .next t → t.run = .halted e → s.run = .halted e)

/-- The errors are those of the table of 60_exceptions.md R140, and no instruction raises any other: in execute exactly
when `executeError` says so, and then nothing else changes (R74; the spec's decision D7); in fetch and decode as R71 and R72 say, a fetch error hiding
a decode error and a decode error an execute error (R142). The codes are the spec's decision D6, STACK_DEPTH D3. -/
def Obligations.ErrorsAreTheTable : Prop :=
  (∀ (i : Instr) (s t : State) (e : Error), s.run = .running → exec i s = .next t →
    (t.run = .halted e ↔ executeError i s = some e) ∧
    (t.run = .halted e → UnchangedExcept [.run] s t)) ∧
  (∀ (s t : State) (e : Error), s.run = .running → step s = .next t →
    (t.run = .halted e ↔
      (0xFFE < s.pc.toNat ∧ e = .addressOutOfRange) ∨
      (s.pc.toNat ≤ 0xFFE ∧
        match decodeWord (wordOfBytes (s.readByte s.pc.toNat) (s.readByte (s.pc.toNat + 1))) with
        | .error _ => e = .invalidOpcode
        | .ok i => executeError i (s.setPc (s.pc + 2)) = some e))) ∧
  Error.code .imageTooLarge = 1 ∧ Error.code .addressOutOfRange = 2 ∧ Error.code .stackUnderflow = 3 ∧
  Error.code .stackOverflow = 4 ∧ Error.code .invalidOpcode = 5

/-- TAKING AN ERROR (60_exceptions.md R143): `run` becomes Halted(e) and nothing else changes, so that nothing is saved or
pushed and `pc` is not redirected; the running `Step()`, or the `Reset`, that ends halted with error e reports Error(code(e))
to its caller. That taking an error is a next state and no fault is the model's choice, log entry 1. -/
def Obligations.ErrorEntryIsReported : Prop :=
  (∀ (e : Error) (s : State), ∃ t, raise e s = .next t ∧ t.run = .halted e ∧ UnchangedExcept [.run] s t) ∧
  (∀ (op : Operation) (s t : State) (e : Error),
    (op = .step ∧ s.run = .running) ∨ (∃ font image, op = .reset font image) →
    perform op s = .next t → t.run = .halted e →
    ∃ r, operationReport op s = some r ∧ r = .error e ∧ r.code = some e.code)

/-- `Halted` is left only by `Reset`: any sequence of other operations leaves the core halted with the same error, and
everything but the timers and the key flags unchanged (60_exceptions.md R144; 40_step_cycle.md R76; the spec's
decision D8). -/
def Obligations.HaltedUntilReset : Prop :=
  ∀ (ops : List Operation) (s t : State) (e : Error), (∀ op ∈ ops, NotReset op) → s.run = .halted e →
    performAll ops s = .next t → t.run = .halted e ∧ UnchangedExcept [.dt, .st, .keys] s t

/-- Observe changes nothing and returns the framebuffer, the two timers and the run state (60_exceptions.md R156). -/
def Obligations.ObserveIsASnapshot : Prop :=
  ∀ s : State, perform .observe s = .next s ∧ (observe s).fb = s.fb ∧ (observe s).dt = s.dt ∧
    (observe s).st = s.st ∧ (observe s).run = s.run

/-- A jump to its own address changes no state: the step that runs it gives back the same state
(41_control_flow.md R81; 70_reset_and_hazards.md R180). -/
def Obligations.SelfJumpIsAFixedPoint : Prop :=
  ∀ (s : State) (nnn : Addr), s.run = .running → s.pc.toNat = nnn.toNat → s.pc.toNat ≤ 0xFFE →
    [s.readByte s.pc.toNat, s.readByte (s.pc.toNat + 1)] = encode (.jp nnn) → step s = .next s
end

