-- ==== Sys2Proof/Laws/Decode.lean ====
section
/-! SUPPORT. Fields and formats as numbers: a field is a quotient and a remainder of the word, a format is the weighted
sum of its fields. -/

namespace Sys2Proof

/-- Concatenation as a number. -/
theorem append_toNat {m n : Nat} (a : BitVec m) (b : BitVec n) :
    (a ++ b).toNat = a.toNat * 2 ^ n + b.toNat := by
  rw [BitVec.toNat_append, ← Nat.shiftLeft_add_eq_or_of_lt b.isLt, Nat.shiftLeft_eq]

theorem topNibble_eq (w : Word) : topNibble w = w.toNat / 4096 := by
  have := w.isLt
  simp only [topNibble, BitVec.extractLsb'_toNat, Nat.shiftRight_eq_div_pow]
  omega

theorem lowNibble_eq (w : Word) : lowNibble w = w.toNat % 16 := by
  simp only [lowNibble, BitVec.extractLsb'_toNat, Nat.shiftRight_zero]

theorem lowByte_eq (w : Word) : lowByte w = w.toNat % 256 := by
  simp only [lowByte, BitVec.extractLsb'_toNat, Nat.shiftRight_zero]

theorem fieldX_val (w : Word) : (fieldX w).val = w.toNat / 256 % 16 := by
  simp [fieldX, Nat.shiftRight_eq_div_pow]

theorem fieldY_val (w : Word) : (fieldY w).val = w.toNat / 16 % 16 := by
  simp [fieldY, Nat.shiftRight_eq_div_pow]

theorem fieldN_toNat (w : Word) : (fieldN w).toNat = w.toNat % 16 := by
  simp [fieldN]

theorem fieldNN_toNat (w : Word) : (fieldNN w).toNat = w.toNat % 256 := by
  simp [fieldNN]

theorem fieldNNN_toNat (w : Word) : (fieldNNN w).toNat = w.toNat % 4096 := by
  simp [fieldNNN]

theorem formatNNN_toNat (op : Nibble) (nnn : Addr) : (formatNNN op nnn).toNat = op.toNat * 4096 + nnn.toNat :=
  append_toNat op nnn

theorem formatXNN_toNat (op : Nibble) (x : Reg) (nn : Byte) :
    (formatXNN op x nn).toNat = op.toNat * 4096 + x.val * 256 + nn.toNat := by
  have h1 : (formatXNN op x nn).toNat = (op ++ regBits x).toNat * 256 + nn.toNat :=
    append_toNat (op ++ regBits x) nn
  have h2 : (op ++ regBits x).toNat = op.toNat * 16 + x.val := append_toNat op (regBits x)
  rw [h1, h2]
  ring

theorem formatXYN_toNat (op : Nibble) (x y : Reg) (n : Nibble) :
    (formatXYN op x y n).toNat = op.toNat * 4096 + x.val * 256 + y.val * 16 + n.toNat := by
  have h1 : (formatXYN op x y n).toNat = (op ++ regBits x ++ regBits y).toNat * 16 + n.toNat :=
    append_toNat (op ++ regBits x ++ regBits y) n
  have h2 : (op ++ regBits x ++ regBits y).toNat = (op ++ regBits x).toNat * 16 + y.val :=
    append_toNat (op ++ regBits x) (regBits y)
  have h3 : (op ++ regBits x).toNat = op.toNat * 16 + x.val := append_toNat op (regBits x)
  rw [h1, h2, h3]
  ring

theorem formatX_toNat (op : Nibble) (x : Reg) (low : Byte) :
    (formatX op x low).toNat = op.toNat * 4096 + x.val * 256 + low.toNat :=
  formatXNN_toNat op x low

/-! ### The fields of each format -/

@[simp] theorem topNibble_formatNNN (op : Nibble) (nnn : Addr) : topNibble (formatNNN op nnn) = op.toNat := by
  rw [topNibble_eq, formatNNN_toNat]
  have := nnn.isLt
  omega

@[simp] theorem fieldNNN_formatNNN (op : Nibble) (nnn : Addr) : fieldNNN (formatNNN op nnn) = nnn := by
  apply BitVec.eq_of_toNat_eq
  rw [fieldNNN_toNat, formatNNN_toNat]
  have := nnn.isLt
  omega

@[simp] theorem topNibble_formatXNN (op : Nibble) (x : Reg) (nn : Byte) : topNibble (formatXNN op x nn) = op.toNat := by
  rw [topNibble_eq, formatXNN_toNat]
  have := x.isLt
  have := nn.isLt
  omega

@[simp] theorem fieldX_formatXNN (op : Nibble) (x : Reg) (nn : Byte) : fieldX (formatXNN op x nn) = x := by
  apply Fin.ext
  rw [fieldX_val, formatXNN_toNat]
  have := x.isLt
  have := nn.isLt
  omega

@[simp] theorem fieldNN_formatXNN (op : Nibble) (x : Reg) (nn : Byte) : fieldNN (formatXNN op x nn) = nn := by
  apply BitVec.eq_of_toNat_eq
  rw [fieldNN_toNat, formatXNN_toNat]
  have := x.isLt
  have := nn.isLt
  omega

@[simp] theorem topNibble_formatXYN (op : Nibble) (x y : Reg) (n : Nibble) : topNibble (formatXYN op x y n) = op.toNat := by
  rw [topNibble_eq, formatXYN_toNat]
  have := x.isLt
  have := y.isLt
  have := n.isLt
  omega

@[simp] theorem lowNibble_formatXYN (op : Nibble) (x y : Reg) (n : Nibble) : lowNibble (formatXYN op x y n) = n.toNat := by
  rw [lowNibble_eq, formatXYN_toNat]
  have := x.isLt
  have := y.isLt
  have := n.isLt
  omega

@[simp] theorem fieldX_formatXYN (op : Nibble) (x y : Reg) (n : Nibble) : fieldX (formatXYN op x y n) = x := by
  apply Fin.ext
  rw [fieldX_val, formatXYN_toNat]
  have := x.isLt
  have := y.isLt
  have := n.isLt
  omega

@[simp] theorem fieldY_formatXYN (op : Nibble) (x y : Reg) (n : Nibble) : fieldY (formatXYN op x y n) = y := by
  apply Fin.ext
  rw [fieldY_val, formatXYN_toNat]
  have := x.isLt
  have := y.isLt
  have := n.isLt
  omega

@[simp] theorem fieldN_formatXYN (op : Nibble) (x y : Reg) (n : Nibble) : fieldN (formatXYN op x y n) = n := by
  apply BitVec.eq_of_toNat_eq
  rw [fieldN_toNat, formatXYN_toNat]
  have := x.isLt
  have := y.isLt
  have := n.isLt
  omega

@[simp] theorem topNibble_formatX (op : Nibble) (x : Reg) (low : Byte) : topNibble (formatX op x low) = op.toNat := by
  rw [topNibble_eq, formatX_toNat]
  have := x.isLt
  have := low.isLt
  omega

@[simp] theorem lowByte_formatX (op : Nibble) (x : Reg) (low : Byte) : lowByte (formatX op x low) = low.toNat := by
  rw [lowByte_eq, formatX_toNat]
  have := x.isLt
  have := low.isLt
  omega

@[simp] theorem fieldX_formatX (op : Nibble) (x : Reg) (low : Byte) : fieldX (formatX op x low) = x := by
  apply Fin.ext
  rw [fieldX_val, formatX_toNat]
  have := x.isLt
  have := low.isLt
  omega

/-! ### Words and bytes -/

theorem wordOfBytes_toNat (hi lo : Byte) : (wordOfBytes hi lo).toNat = hi.toNat * 256 + lo.toNat :=
  append_toNat hi lo

/-- Splitting a word into its two bytes and joining them again gives the word. -/
theorem wordOfBytes_split (w : Word) : wordOfBytes (w.extractLsb' 8 8) (w.extractLsb' 0 8) = w := by
  apply BitVec.eq_of_toNat_eq
  have := w.isLt
  rw [wordOfBytes_toNat, BitVec.extractLsb'_toNat, BitVec.extractLsb'_toNat, Nat.shiftRight_eq_div_pow,
    Nat.shiftRight_zero]
  omega

/-! ### The masks of the opcode map

A word ANDed with a mask keeps the nibbles the mask keeps; so a row covers a word exactly when those agree. -/

theorem masked_top (w : Word) : (w &&& 0xF000).toNat = topNibble w * 4096 := by
  have h : w = (w.extractLsb' 12 4 ++ w.extractLsb' 0 12 : BitVec 16) := by
    apply BitVec.eq_of_toNat_eq
    have := w.isLt
    rw [append_toNat, BitVec.extractLsb'_toNat, BitVec.extractLsb'_toNat, Nat.shiftRight_eq_div_pow,
      Nat.shiftRight_zero]
    omega
  have h' : w &&& 0xF000 = ((w.extractLsb' 12 4 &&& 0xF) ++ (w.extractLsb' 0 12 &&& 0x000) : BitVec 16) := by
    rw [← BitVec.and_append, ← h]
    rfl
  rw [h', append_toNat, show (0xF : BitVec 4) = BitVec.allOnes 4 from rfl, BitVec.and_allOnes]
  simp [topNibble]

theorem masked_top_low (w : Word) : (w &&& 0xF00F).toNat = topNibble w * 4096 + lowNibble w := by
  have h : w = (w.extractLsb' 12 4 ++ w.extractLsb' 4 8 ++ w.extractLsb' 0 4 : BitVec 16) := by
    apply BitVec.eq_of_toNat_eq
    have := w.isLt
    rw [append_toNat, append_toNat, BitVec.extractLsb'_toNat, BitVec.extractLsb'_toNat, BitVec.extractLsb'_toNat,
      Nat.shiftRight_eq_div_pow, Nat.shiftRight_eq_div_pow, Nat.shiftRight_zero]
    omega
  have h' : w &&& 0xF00F =
      ((w.extractLsb' 12 4 &&& 0xF) ++ (w.extractLsb' 4 8 &&& 0x00) ++ (w.extractLsb' 0 4 &&& 0xF) : BitVec 16) := by
    rw [← BitVec.and_append, ← BitVec.and_append, ← h]
    rfl
  rw [h', append_toNat, append_toNat, show (0xF : BitVec 4) = BitVec.allOnes 4 from rfl, BitVec.and_allOnes,
    BitVec.and_allOnes]
  simp [topNibble, lowNibble]
  ring

theorem masked_top_byte (w : Word) : (w &&& 0xF0FF).toNat = topNibble w * 4096 + lowByte w := by
  have h : w = (w.extractLsb' 12 4 ++ w.extractLsb' 8 4 ++ w.extractLsb' 0 8 : BitVec 16) := by
    apply BitVec.eq_of_toNat_eq
    have := w.isLt
    rw [append_toNat, append_toNat, BitVec.extractLsb'_toNat, BitVec.extractLsb'_toNat, BitVec.extractLsb'_toNat,
      Nat.shiftRight_eq_div_pow, Nat.shiftRight_eq_div_pow, Nat.shiftRight_zero]
    omega
  have h' : w &&& 0xF0FF =
      ((w.extractLsb' 12 4 &&& 0xF) ++ (w.extractLsb' 8 4 &&& 0x0) ++ (w.extractLsb' 0 8 &&& 0xFF) : BitVec 16) := by
    rw [← BitVec.and_append, ← BitVec.and_append, ← h]
    rfl
  rw [h', append_toNat, append_toNat, show (0xF : BitVec 4) = BitVec.allOnes 4 from rfl,
    show (0xFF : BitVec 8) = BitVec.allOnes 8 from rfl, BitVec.and_allOnes, BitVec.and_allOnes]
  simp [topNibble, lowByte]
  ring

theorem covers_iff (r : OpcodeRow) (w : Word) : r.covers w = true ↔ (w &&& r.mask).toNat = r.value.toNat := by
  rw [OpcodeRow.covers, beq_iff_eq, BitVec.toNat_inj]

end Sys2Proof
end

