-- ==== Sys2Proof/Laws/Draw.lean ====
section
/-! SUPPORT. Pixels: reading one after a flip or a clear, what one sprite bit does, and what a
whole sprite does. -/

namespace Sys2Proof.Machine

/-- A flip inverts its own pixel and leaves every other pixel. -/
theorem Screen.pixel_flip (fb : Screen) (x x' : Fin 64) (y y' : Fin 32) :
    (fb.flip x y).pixel x' y' = if x' = x ∧ y' = y then !fb.pixel x' y' else fb.pixel x' y' := by
  unfold Screen.pixel Screen.flip
  by_cases hy : y' = y
  · subst hy
    by_cases hx : x' = x
    · subst hx
      simp
    · have : x.val ≠ x'.val := fun h => hx (Fin.ext h.symm)
      simp [hx, Vector.getElem_set_ne, this]
  · have : y.val ≠ y'.val := fun h => hy (Fin.ext h.symm)
    simp [hy, Vector.getElem_set_ne, this]

@[simp] theorem Screen.pixel_blank (x : Fin 64) (y : Fin 32) : Screen.blank.pixel x y = false := by
  simp [Screen.blank, Screen.pixel]

/-- Two framebuffers with the same pixels are the same. -/
theorem Screen.ext_pixel {fb fb' : Screen} (h : ∀ x y, fb.pixel x y = fb'.pixel x y) : fb = fb' := by
  apply Vector.ext
  intro y hy
  apply Vector.ext
  intro x hx
  exact h ⟨x, hx⟩ ⟨y, hy⟩

theorem drawPixel_pixel (x x' : Fin 64) (y y' : Fin 32) (bit : Bool) (p : Screen × Bool) :
    (drawPixel x y bit p).1.pixel x' y' =
      if bit ∧ x' = x ∧ y' = y then !p.1.pixel x' y' else p.1.pixel x' y' := by
  cases bit <;> simp [drawPixel, Screen.pixel_flip]

theorem drawPixel_collision (x : Fin 64) (y : Fin 32) (bit : Bool) (p : Screen × Bool) :
    (drawPixel x y bit p).2 = (p.2 || (bit && p.1.pixel x y)) := by
  cases bit <;> simp [drawPixel]

/-! ### A whole sprite

The loops of R121 as one pass over the places of the sprite, which are distinct: what the pass does to each pixel and to
the collision. -/

/-- One place of a sprite: the pixel it falls on and its bit. -/
abbrev Spot := (Fin 64 × Fin 32) × Bool

/-- Drawing one spot. -/
def drawSpot (p : Screen × Bool) (e : Spot) : Screen × Bool := drawPixel e.1.1 e.1.2 e.2 p

/-- The spots of a sprite, in the order of the loops of R121. -/
def spots (vx vy : Byte) (rows : List Byte) : List Spot :=
  rows.zipIdx.flatMap fun row =>
    (List.range 8).map fun c => ((spriteColumn vx c, spriteRow vy row.2), spriteBit row.1 c)

/-- The draw is one pass over the spots. -/
theorem drawSprite_eq (vx vy : Byte) (rows : List Byte) (fb : Screen) :
    drawSprite vx vy rows fb = (spots vx vy rows).foldl drawSpot (fb, false) := by
  simp only [spots, List.foldl_flatMap, List.foldl_map, drawSprite]
  rfl

/-- Over spots at distinct places, a pixel is inverted exactly when a spot with bit 1 lies on it. -/
theorem drawSpots_pixel (es : List Spot) (p : Screen × Bool) (x : Fin 64) (y : Fin 32)
    (h : (es.map Prod.fst).Nodup) :
    (es.foldl drawSpot p).1.pixel x y = if ((x, y), true) ∈ es then !p.1.pixel x y else p.1.pixel x y := by
  induction es generalizing p with
  | nil => simp
  | cons e es ih =>
    obtain ⟨⟨ex, ey⟩, eb⟩ := e
    rw [List.map_cons, List.nodup_cons] at h
    rw [List.foldl_cons, ih _ h.2]
    have hp : (drawSpot p ((ex, ey), eb)).1.pixel x y =
        if eb ∧ x = ex ∧ y = ey then !p.1.pixel x y else p.1.pixel x y := drawPixel_pixel ex x ey y eb p
    rw [hp]
    by_cases hm : ((x, y), true) ∈ es
    · have hne : ¬ (x = ex ∧ y = ey) := by
        rintro ⟨rfl, rfl⟩
        exact h.1 (List.mem_map.2 ⟨_, hm, rfl⟩)
      simp [hm, hne]
    · cases eb <;> simp [hm]

/-- Over spots at distinct places, the collision is that some spot with bit 1 lies on a pixel that was on. -/
theorem drawSpots_collision (es : List Spot) (p : Screen × Bool) (h : (es.map Prod.fst).Nodup) :
    (es.foldl drawSpot p).2 = true ↔
      p.2 = true ∨ ∃ x y, ((x, y), true) ∈ es ∧ p.1.pixel x y = true := by
  induction es generalizing p with
  | nil => simp
  | cons e es ih =>
    obtain ⟨⟨ex, ey⟩, eb⟩ := e
    rw [List.map_cons, List.nodup_cons] at h
    rw [List.foldl_cons, ih _ h.2]
    have hc : (drawSpot p ((ex, ey), eb)).2 = (p.2 || (eb && p.1.pixel ex ey)) := drawPixel_collision ex ey eb p
    have hp : ∀ x y, ((x, y), true) ∈ es → (drawSpot p ((ex, ey), eb)).1.pixel x y = p.1.pixel x y := by
      intro x y hm
      have : ¬ (x = ex ∧ y = ey) := by
        rintro ⟨rfl, rfl⟩
        exact h.1 (List.mem_map.2 ⟨_, hm, rfl⟩)
      simp [drawSpot, drawPixel_pixel, this]
    rw [hc]
    constructor
    · rintro (h1 | ⟨x, y, hm, h1⟩)
      · rw [Bool.or_eq_true, Bool.and_eq_true] at h1
        rcases h1 with h1 | ⟨rfl, h1⟩
        · exact .inl h1
        · exact .inr ⟨ex, ey, List.mem_cons_self, h1⟩
      · exact .inr ⟨x, y, List.mem_cons_of_mem _ hm, hp x y hm ▸ h1⟩
    · rintro (h1 | ⟨x, y, hm, h1⟩)
      · exact .inl (by simp [h1])
      · rcases List.mem_cons.1 hm with he | hm
        · cases he
          exact .inl (by simp [h1])
        · exact .inr ⟨x, y, hm, (hp x y hm).trans h1⟩

/-- Which spots a sprite has. -/
theorem mem_spots {vx vy : Byte} {rows : List Byte} {e : Spot} : e ∈ spots vx vy rows ↔
    ∃ r c, ∃ h : r < rows.length, c < 8 ∧ e = ((spriteColumn vx c, spriteRow vy r), spriteBit rows[r] c) := by
  simp only [spots, List.mem_flatMap, List.mem_map, List.mem_range, Prod.exists]
  constructor
  · rintro ⟨b, r, hr, c, hc, rfl⟩
    obtain ⟨h1, h2⟩ := List.mem_zipIdx' hr
    exact ⟨r, c, h1, hc, by rw [h2]⟩
  · rintro ⟨r, c, hr, hc, rfl⟩
    exact ⟨rows[r], r, by rw [List.mem_zipIdx_iff_getElem?]; simp [hr], c, hc, rfl⟩

/-- The eight columns of a sprite are distinct. -/
theorem spriteColumn_inj (vx : Byte) {c c' : Nat} (h : c < 8) (h' : c' < 8)
    (he : spriteColumn vx c = spriteColumn vx c') : c = c' := by
  have := congrArg Fin.val he
  simp only [spriteColumn, Fin.ofNat_eq_cast, Fin.val_natCast] at this
  omega

/-- The at most sixteen rows of a sprite are distinct. -/
theorem spriteRow_inj (vy : Byte) {r r' : Nat} (h : r < 16) (h' : r' < 16)
    (he : spriteRow vy r = spriteRow vy r') : r = r' := by
  have := congrArg Fin.val he
  simp only [spriteRow, Fin.ofNat_eq_cast, Fin.val_natCast] at this
  omega

/-- The spots of a sprite lie at distinct places. -/
theorem spots_nodup (vx vy : Byte) (rows : List Byte) (h : rows.length ≤ 16) :
    ((spots vx vy rows).map Prod.fst).Nodup := by
  simp only [spots, List.map_flatMap, List.map_map, Function.comp_def]
  rw [List.nodup_flatMap]
  constructor
  · intro row _
    refine List.Nodup.map_on ?_ (List.nodup_range)
    intro c hc c' hc' he
    exact spriteColumn_inj vx (List.mem_range.1 hc) (List.mem_range.1 hc') (congrArg Prod.fst he)
  · rw [List.pairwise_iff_getElem]
    intro r r' hr hr' hlt
    rw [Function.onFun, List.disjoint_iff_ne]
    simp only [List.getElem_zipIdx, List.mem_map, List.mem_range]
    rintro _ ⟨c, _, rfl⟩ _ ⟨c', _, rfl⟩ he
    rw [List.length_zipIdx] at hr hr'
    have := spriteRow_inj vy (by omega) (by omega) (congrArg Prod.snd he)
    omega

end Sys2Proof.Machine
end

