-- ==== Sys2Proof/Laws/Memory.lean ====
section
/-! SUPPORT. The laws of memory: a read after a write, writes of consecutive bytes, and the canonical form, which every
memory operation keeps. -/

namespace Sys2Proof.Machine

/-! ### One byte -/

theorem Memory.read_insertCell (a : Nat) (b : Byte) (m : Memory) (a' : Nat) :
    (Memory.insertCell a b m).read a' = if a' = a then b else m.read a' := by
  induction m with
  | nil => simp [Memory.insertCell, Memory.read]
  | cons c m ih =>
    obtain ⟨ca, cb⟩ := c
    unfold Memory.insertCell
    split
    · simp [Memory.read]
    · split
      · subst ca
        simp only [Memory.read]
        split <;> rfl
      · simp only [Memory.read, ih]
        split <;> split <;> simp_all

theorem Memory.read_dropCell (a : Nat) (m : Memory) (a' : Nat) :
    (Memory.dropCell a m).read a' = if a' = a then Memory.initial a else m.read a' := by
  induction m with
  | nil =>
    simp only [Memory.dropCell, List.filter_nil, Memory.read]
    split <;> simp_all
  | cons c m ih =>
    obtain ⟨ca, cb⟩ := c
    unfold Memory.dropCell at ih ⊢
    by_cases h : ca = a
    · subst ca
      simp only [List.filter_cons, bne_self_eq_false, Bool.false_eq_true, ↓reduceIte, Memory.read, ih]
      split <;> rfl
    · simp only [List.filter_cons, bne_iff_ne, ne_eq, h, not_false_eq_true, ↓reduceIte, Memory.read, ih]
      split <;> split <;> simp_all

/-- Reading after writing one byte (20_memory.md R37). -/
theorem Memory.read_write (m : Memory) (a : Nat) (b : Byte) (a' : Nat) :
    (m.write a b).read a' = if a' = a then b else m.read a' := by
  unfold Memory.write
  split
  · next h => rw [Memory.read_dropCell, h]
  · exact Memory.read_insertCell a b m a'

/-! ### Consecutive bytes -/

/-- Reading after writing consecutive bytes: inside them the byte written there, elsewhere the old byte. -/
theorem Memory.read_writeAll (m : Memory) (a : Nat) (bs : List Byte) (a' : Nat) :
    (m.writeAll a bs).read a' = if a ≤ a' then bs.getD (a' - a) (m.read a') else m.read a' := by
  induction bs generalizing m a with
  | nil => simp [Memory.writeAll]
  | cons b bs ih =>
    simp only [Memory.writeAll, ih, Memory.read_write]
    by_cases h1 : a + 1 ≤ a'
    · have h2 : a' - a = (a' - (a + 1)) + 1 := by omega
      have h3 : a ≤ a' := by omega
      have h4 : a' ≠ a := by omega
      simp [h1, h2, h3, h4]
    · by_cases h2 : a' = a
      · subst a'
        simp
      · have h3 : ¬ a ≤ a' := by omega
        simp [h1, h2, h3]

theorem Memory.read_writeAll_inside (m : Memory) (a : Nat) (bs : List Byte) (k : Nat) (h : k < bs.length) :
    (m.writeAll a bs).read (a + k) = bs[k] := by
  simp [Memory.read_writeAll, h]

theorem Memory.read_writeAll_outside (m : Memory) (a : Nat) (bs : List Byte) (a' : Nat)
    (h : a' < a ∨ a + bs.length ≤ a') : (m.writeAll a bs).read a' = m.read a' := by
  rw [Memory.read_writeAll]
  split
  · next h' =>
    have : bs.length ≤ a' - a := by omega
    simp [List.getD_eq_getElem?_getD, this]
  · rfl

@[simp] theorem Memory.readAll_length (m : Memory) (a n : Nat) : (m.readAll a n).length = n := by
  simp [Memory.readAll]

@[simp] theorem Memory.readAll_getElem (m : Memory) (a n k : Nat) (h : k < (m.readAll a n).length) :
    (m.readAll a n)[k] = m.read (a + k) := by
  simp [Memory.readAll]

/-! ### The canonical form -/

theorem Memory.wf_iff (m : Memory) : m.wf = true ↔
    (m.Pairwise fun c d => c.1 < d.1) ∧ ∀ c ∈ m, c.1 < Config.memSize ∧ c.2 ≠ Memory.initial c.1 := by
  simp [Memory.wf]

theorem Memory.mem_insertCell {a : Nat} {b : Byte} {m : Memory} {c : Host.Cell}
    (h : c ∈ Memory.insertCell a b m) : c = (a, b) ∨ c ∈ m := by
  induction m with
  | nil => simpa [Memory.insertCell] using h
  | cons d m ih =>
    obtain ⟨da, db⟩ := d
    unfold Memory.insertCell at h
    split at h
    · simpa using h
    · split at h
      · simp only [List.mem_cons] at h ⊢
        tauto
      · simp only [List.mem_cons] at h ⊢
        rcases h with h | h
        · exact .inr (.inl h)
        · rcases ih h with h | h
          · exact .inl h
          · exact .inr (.inr h)

theorem Memory.insertCell_sorted {a : Nat} {b : Byte} {m : Memory} (h : m.Pairwise fun c d => c.1 < d.1) :
    (Memory.insertCell a b m).Pairwise fun c d => c.1 < d.1 := by
  induction m with
  | nil => simp [Memory.insertCell]
  | cons d m ih =>
    obtain ⟨da, db⟩ := d
    obtain ⟨hd, hm⟩ := List.pairwise_cons.1 h
    unfold Memory.insertCell
    split
    · next hlt =>
      refine List.pairwise_cons.2 ⟨fun c hc => ?_, h⟩
      rcases List.mem_cons.1 hc with rfl | hc
      · exact hlt
      · exact Nat.lt_trans hlt (hd c hc)
    · split
      · next heq =>
        subst heq
        exact List.pairwise_cons.2 ⟨hd, hm⟩
      · refine List.pairwise_cons.2 ⟨fun c hc => ?_, ih hm⟩
        rcases Memory.mem_insertCell hc with rfl | hc
        · show da < a
          omega
        · exact hd c hc

/-- Writing one byte inside the address space keeps the canonical form. -/
theorem Memory.write_wf {m : Memory} {a : Nat} (b : Byte) (hm : m.wf = true) (ha : a < Config.memSize) :
    (m.write a b).wf = true := by
  rw [Memory.wf_iff] at hm ⊢
  unfold Memory.write
  split
  · refine ⟨hm.1.filter _, fun c hc => hm.2 c (List.mem_of_mem_filter hc)⟩
  · next hb =>
    refine ⟨Memory.insertCell_sorted hm.1, fun c hc => ?_⟩
    rcases Memory.mem_insertCell hc with rfl | hc
    · exact ⟨ha, hb⟩
    · exact hm.2 c hc

/-- Writing consecutive bytes inside the address space keeps the canonical form. -/
theorem Memory.writeAll_wf {m : Memory} {a : Nat} {bs : List Byte} (hm : m.wf = true)
    (ha : a + bs.length ≤ Config.memSize) : (m.writeAll a bs).wf = true := by
  induction bs generalizing m a with
  | nil => exact hm
  | cons b bs ih =>
    simp only [List.length_cons] at ha
    exact ih (Memory.write_wf b hm (by omega)) (by omega)

/-- Writing no bytes changes nothing. -/
@[simp] theorem Memory.writeAll_nil (m : Memory) (a : Nat) : m.writeAll a [] = m := rfl

/-- The memory of the reset state has the canonical form. -/
theorem reset_memory_wf : State.reset.mem.wf = true := by decide

/-- `Reset` gives memory in canonical form, whatever the font, for every image that fits. -/
theorem resetMemory_wf (font : Vector Byte 80) (image : List Byte) (h : image.length ≤ Config.imageMax) :
    (resetMemory font image).wf = true := by
  refine Memory.writeAll_wf (Memory.writeAll_wf (by decide) ?_) ?_
  · simp [Config.fontBase, Config.memSize]
  · simp only [Config.imageMax, Config.progBase, Config.memSize] at *
    omega

end Sys2Proof.Machine
end

