-- ==== Sys2Proof/Laws/Events.lean ====
section
/-! SUPPORT. What the operations beside `Step()` can do, and what each operation reports. -/

namespace Sys2Proof.Machine

/-- `Reset` with an image that fits: the reset state with font and image placed, the draws going on. -/
theorem resetTo_fits {image : List Byte} (font : Vector Byte 80) (s : State) (h : imageFits image = true) :
    resetTo font image s = (State.reset.setMem (resetMemory font image)).setDraws s.draws := by
  simp [resetTo, h]

/-- `Reset` with an image that does not fit: as for the empty image, but halted. -/
theorem resetTo_too_large {image : List Byte} (font : Vector Byte 80) (s : State) (h : imageFits image = false) :
    resetTo font image s = (resetTo font [] s).setRun (.halted .imageTooLarge) := by
  have h' : imageFits [] = true := by decide
  simp [resetTo, h, h']

/-- A failing `Reset` reports its error; any other reports nothing. -/
theorem resetReport_eq_some {image : List Byte} {r : Report} :
    resetReport image = some r ↔ imageFits image = false ∧ r = .error .imageTooLarge := by
  unfold resetReport
  cases imageFits image <;> simp [eq_comm]

/-- The report of a step that gives a next state. -/
theorem stepReport_next {s t : State} (h : step s = .next t) : stepReport s = some (reportOf s.run t.run) := by
  simp [stepReport, h]

/-- A running step that ends halted reports the error it raised. -/
theorem reportOf_raised (e : Error) : reportOf .running (.halted e) = .error e := rfl

end Sys2Proof.Machine
end

