-- ==== Sys2Proof/Laws/Ops.lean ====
section
/-! SUPPORT. One lemma per shared operation that says everything it can do: reading and storing bytes under the bound
check, the call stack, skipping, raising an error. -/

namespace Sys2Proof.Machine

theorem inSpace_iff (a n : Nat) : inSpace a n = true ↔ n = 0 ∨ a + n ≤ Config.memSize := by
  simp [inSpace]

/-! ### Bytes of memory -/

/-- Reading n bytes that lie in the address space gives byte k of memory for every k below n. -/
theorem State.readBytes_some {s : State} {a n : Nat} (h : n = 0 ∨ a + n ≤ Config.memSize) :
    s.readBytes a n = some ((List.range n).map fun k => s.readByte (a + k)) := by
  simp only [State.readBytes, (inSpace_iff a n).2 h, ↓reduceIte]
  rfl

/-- Reading n bytes of which one lies above 0xFFF gives none. -/
theorem State.readBytes_none {s : State} {a n : Nat} (h : 0 < n) (h' : Config.memSize < a + n) :
    s.readBytes a n = none := by
  have : ¬ inSpace a n = true := by
    rw [inSpace_iff]
    omega
  simp [State.readBytes, this]

/-- Storing bytes that lie in the address space changes memory alone. -/
theorem State.writeBytes_some {s : State} {a : Nat} {bs : List Byte} (h : a + bs.length ≤ Config.memSize) :
    s.writeBytes a bs = some (s.setMem (s.mem.writeAll a bs)) := by
  simp [State.writeBytes, (inSpace_iff a bs.length).2 (.inr h)]

/-- Storing bytes of which one lies above 0xFFF gives none. -/
theorem State.writeBytes_none {s : State} {a : Nat} {bs : List Byte} (h : 0 < bs.length)
    (h' : Config.memSize < a + bs.length) : s.writeBytes a bs = none := by
  have : ¬ inSpace a bs.length = true := by
    rw [inSpace_iff]
    omega
  simp [State.writeBytes, this]

/-- All that storing bytes can do: give the state with memory written, in bounds, or nothing, out of bounds. -/
theorem State.writeBytes_cases (s : State) (a : Nat) (bs : List Byte) :
    ((bs.length = 0 ∨ a + bs.length ≤ Config.memSize) ∧
      s.writeBytes a bs = some (s.setMem (s.mem.writeAll a bs))) ∨
    (0 < bs.length ∧ Config.memSize < a + bs.length ∧ s.writeBytes a bs = none) := by
  by_cases h : bs.length = 0 ∨ a + bs.length ≤ Config.memSize
  · exact .inl ⟨h, by simp [State.writeBytes, (inSpace_iff a bs.length).2 h]⟩
  · exact .inr ⟨by omega, by omega, State.writeBytes_none (by omega) (by omega)⟩

/-- A stored byte reads back; every other byte keeps its value. -/
theorem State.setMem_writeAll_readByte (s : State) (a : Nat) (bs : List Byte) (a' : Nat) :
    (s.setMem (s.mem.writeAll a bs)).readByte a' =
      if a ≤ a' then bs.getD (a' - a) (s.readByte a') else s.readByte a' :=
  Memory.read_writeAll s.mem a bs a'

@[simp] theorem State.firstRegs_length (s : State) (x : Reg) : (s.firstRegs x).length = x.val + 1 := by
  have := x.isLt
  simp only [State.firstRegs, List.length_take, Vector.length_toList]
  omega

@[simp] theorem State.firstRegs_getElem (s : State) (x : Reg) (k : Nat) (h : k < (s.firstRegs x).length)
    (hk : k < 16) : (s.firstRegs x)[k] = s.getV ⟨k, hk⟩ := by
  simp [State.firstRegs, State.getV]

@[simp] theorem decimalDigits_length (b : Byte) : (decimalDigits b).length = 3 := rfl

/-! ### The call stack -/

theorem State.push_some {s : State} (a : Word) (h : s.stack.length < Config.stackDepth) :
    s.push a = some (s.setStack (s.stack ++ [a])) := by
  simp [State.push, Nat.not_le.2 h]

theorem State.push_none {s : State} (a : Word) (h : Config.stackDepth ≤ s.stack.length) : s.push a = none := by
  simp [State.push, h]

theorem State.pop_none {s : State} (h : s.stack = []) : s.pop = none := by
  simp [State.pop, h]

/-- Popping a stack that ends in `a` gives `a` and the rest. -/
theorem State.pop_some {s : State} {l : List Word} {a : Word} (h : s.stack = l ++ [a]) :
    s.pop = some (a, s.setStack l) := by
  simp [State.pop, h]

/-! ### Skipping and raising -/

@[simp] theorem State.skipIf_true (s : State) : s.skipIf true = s.setPc (s.pc + 2) := rfl

@[simp] theorem State.skipIf_false (s : State) : s.skipIf false = s := rfl

/-- Skipping changes `pc` alone. -/
theorem State.skipIf_eq (s : State) (c : Bool) : s.skipIf c = s.setPc (if c then s.pc + 2 else s.pc) := by
  cases c <;> rfl

/-- Raising an error is a next state that differs in `run` alone. -/
theorem raise_eq (e : Error) (s : State) : raise e s = .next (s.setRun (.halted e)) := rfl

end Sys2Proof.Machine
end

