-- ==== Sys2Proof/Laws/PerInstr.lean ====
section
/-! SUPPORT. Two statements about every instruction as syntax: its operand fields fit their bits (30_encoding.md R62), and
its word is covered by its row of the opcode map (R55). -/

namespace Sys2Proof.Laws.FieldsFit

/-- Every operand fits its field (30_encoding.md R62: every value of every operand field is legal). -/
def Statement (i : Instr) : Prop := i.wf = true

theorem reg_fits (x : Reg) : Field.wf ⟨x.val, 4⟩ = true := by
  have := x.isLt
  simp only [Field.wf, decide_eq_true_iff]
  omega

theorem bits_fit (n : Nat) (b : BitVec n) : Field.wf ⟨b.toNat, n⟩ = true := by
  simp only [Field.wf, decide_eq_true_iff]
  exact b.isLt

theorem cls : Statement (.cls) := rfl

theorem ret : Statement (.ret) := rfl

theorem jp (nnn : Addr) : Statement (.jp nnn) := by
  simp [Statement, Instr.wf, Instr.fields, bits_fit]

theorem call (nnn : Addr) : Statement (.call nnn) := by
  simp [Statement, Instr.wf, Instr.fields, bits_fit]

theorem seI (x : Reg) (nn : Byte) : Statement (.seI x nn) := by
  simp [Statement, Instr.wf, Instr.fields, reg_fits, bits_fit]

theorem sneI (x : Reg) (nn : Byte) : Statement (.sneI x nn) := by
  simp [Statement, Instr.wf, Instr.fields, reg_fits, bits_fit]

theorem seR (x y : Reg) : Statement (.seR x y) := by
  simp [Statement, Instr.wf, Instr.fields, reg_fits]

theorem ldI (x : Reg) (nn : Byte) : Statement (.ldI x nn) := by
  simp [Statement, Instr.wf, Instr.fields, reg_fits, bits_fit]

theorem addI (x : Reg) (nn : Byte) : Statement (.addI x nn) := by
  simp [Statement, Instr.wf, Instr.fields, reg_fits, bits_fit]

theorem ldR (x y : Reg) : Statement (.ldR x y) := by
  simp [Statement, Instr.wf, Instr.fields, reg_fits]

theorem orR (x y : Reg) : Statement (.orR x y) := by
  simp [Statement, Instr.wf, Instr.fields, reg_fits]

theorem andR (x y : Reg) : Statement (.andR x y) := by
  simp [Statement, Instr.wf, Instr.fields, reg_fits]

theorem xorR (x y : Reg) : Statement (.xorR x y) := by
  simp [Statement, Instr.wf, Instr.fields, reg_fits]

theorem addR (x y : Reg) : Statement (.addR x y) := by
  simp [Statement, Instr.wf, Instr.fields, reg_fits]

theorem sub (x y : Reg) : Statement (.sub x y) := by
  simp [Statement, Instr.wf, Instr.fields, reg_fits]

theorem shr (x y : Reg) : Statement (.shr x y) := by
  simp [Statement, Instr.wf, Instr.fields, reg_fits]

theorem subn (x y : Reg) : Statement (.subn x y) := by
  simp [Statement, Instr.wf, Instr.fields, reg_fits]

theorem shl (x y : Reg) : Statement (.shl x y) := by
  simp [Statement, Instr.wf, Instr.fields, reg_fits]

theorem sneR (x y : Reg) : Statement (.sneR x y) := by
  simp [Statement, Instr.wf, Instr.fields, reg_fits]

theorem ldA (nnn : Addr) : Statement (.ldA nnn) := by
  simp [Statement, Instr.wf, Instr.fields, bits_fit]

theorem jpV0 (nnn : Addr) : Statement (.jpV0 nnn) := by
  simp [Statement, Instr.wf, Instr.fields, bits_fit]

theorem rnd (x : Reg) (nn : Byte) : Statement (.rnd x nn) := by
  simp [Statement, Instr.wf, Instr.fields, reg_fits, bits_fit]

theorem drw (x y : Reg) (n : Nibble) : Statement (.drw x y n) := by
  simp [Statement, Instr.wf, Instr.fields, reg_fits, bits_fit]

theorem skp (x : Reg) : Statement (.skp x) := by
  simp [Statement, Instr.wf, Instr.fields, reg_fits]

theorem sknp (x : Reg) : Statement (.sknp x) := by
  simp [Statement, Instr.wf, Instr.fields, reg_fits]

theorem ldGdt (x : Reg) : Statement (.ldGdt x) := by
  simp [Statement, Instr.wf, Instr.fields, reg_fits]

theorem ldKey (x : Reg) : Statement (.ldKey x) := by
  simp [Statement, Instr.wf, Instr.fields, reg_fits]

theorem ldSdt (x : Reg) : Statement (.ldSdt x) := by
  simp [Statement, Instr.wf, Instr.fields, reg_fits]

theorem ldSst (x : Reg) : Statement (.ldSst x) := by
  simp [Statement, Instr.wf, Instr.fields, reg_fits]

theorem addA (x : Reg) : Statement (.addA x) := by
  simp [Statement, Instr.wf, Instr.fields, reg_fits]

theorem ldFnt (x : Reg) : Statement (.ldFnt x) := by
  simp [Statement, Instr.wf, Instr.fields, reg_fits]

theorem bcd (x : Reg) : Statement (.bcd x) := by
  simp [Statement, Instr.wf, Instr.fields, reg_fits]

theorem stM (x : Reg) : Statement (.stM x) := by
  simp [Statement, Instr.wf, Instr.fields, reg_fits]

theorem ldM (x : Reg) : Statement (.ldM x) := by
  simp [Statement, Instr.wf, Instr.fields, reg_fits]

end Sys2Proof.Laws.FieldsFit

namespace Sys2Proof.Laws.InTable

/-- The row of the opcode map that has the instruction's number covers the instruction's word (30_encoding.md R55). -/
def Statement (i : Instr) : Prop :=
  (opcodeTable.filter fun r => r.number == i.rowNumber).map (fun r => r.covers (encodeWord i)) = [true]

theorem covers_top {value : Word} {w : Word} (n : Nat) (m : String) (h : topNibble w * 4096 = value.toNat) :
    OpcodeRow.covers ⟨n, m, value, 0xF000⟩ w = true := by
  rw [covers_iff, masked_top, h]

theorem covers_top_low {value : Word} {w : Word} (n : Nat) (m : String)
    (h : topNibble w * 4096 + lowNibble w = value.toNat) :
    OpcodeRow.covers ⟨n, m, value, 0xF00F⟩ w = true := by
  rw [covers_iff, masked_top_low, h]

theorem covers_top_byte {value : Word} {w : Word} (n : Nat) (m : String)
    (h : topNibble w * 4096 + lowByte w = value.toNat) :
    OpcodeRow.covers ⟨n, m, value, 0xF0FF⟩ w = true := by
  rw [covers_iff, masked_top_byte, h]

theorem cls : Statement (.cls) := by
  rfl

theorem ret : Statement (.ret) := by
  rfl

theorem jp (nnn : Addr) : Statement (.jp nnn) := by
  exact congrArg (fun b => [b]) (covers_top _ _ (by simp [encodeWord]))

theorem call (nnn : Addr) : Statement (.call nnn) := by
  exact congrArg (fun b => [b]) (covers_top _ _ (by simp [encodeWord]))

theorem seI (x : Reg) (nn : Byte) : Statement (.seI x nn) := by
  exact congrArg (fun b => [b]) (covers_top _ _ (by simp [encodeWord]))

theorem sneI (x : Reg) (nn : Byte) : Statement (.sneI x nn) := by
  exact congrArg (fun b => [b]) (covers_top _ _ (by simp [encodeWord]))

theorem seR (x y : Reg) : Statement (.seR x y) := by
  exact congrArg (fun b => [b]) (covers_top_low _ _ (by simp [encodeWord]))

theorem ldI (x : Reg) (nn : Byte) : Statement (.ldI x nn) := by
  exact congrArg (fun b => [b]) (covers_top _ _ (by simp [encodeWord]))

theorem addI (x : Reg) (nn : Byte) : Statement (.addI x nn) := by
  exact congrArg (fun b => [b]) (covers_top _ _ (by simp [encodeWord]))

theorem ldR (x y : Reg) : Statement (.ldR x y) := by
  exact congrArg (fun b => [b]) (covers_top_low _ _ (by simp [encodeWord]))

theorem orR (x y : Reg) : Statement (.orR x y) := by
  exact congrArg (fun b => [b]) (covers_top_low _ _ (by simp [encodeWord]))

theorem andR (x y : Reg) : Statement (.andR x y) := by
  exact congrArg (fun b => [b]) (covers_top_low _ _ (by simp [encodeWord]))

theorem xorR (x y : Reg) : Statement (.xorR x y) := by
  exact congrArg (fun b => [b]) (covers_top_low _ _ (by simp [encodeWord]))

theorem addR (x y : Reg) : Statement (.addR x y) := by
  exact congrArg (fun b => [b]) (covers_top_low _ _ (by simp [encodeWord]))

theorem sub (x y : Reg) : Statement (.sub x y) := by
  exact congrArg (fun b => [b]) (covers_top_low _ _ (by simp [encodeWord]))

theorem shr (x y : Reg) : Statement (.shr x y) := by
  exact congrArg (fun b => [b]) (covers_top_low _ _ (by simp [encodeWord]))

theorem subn (x y : Reg) : Statement (.subn x y) := by
  exact congrArg (fun b => [b]) (covers_top_low _ _ (by simp [encodeWord]))

theorem shl (x y : Reg) : Statement (.shl x y) := by
  exact congrArg (fun b => [b]) (covers_top_low _ _ (by simp [encodeWord]))

theorem sneR (x y : Reg) : Statement (.sneR x y) := by
  exact congrArg (fun b => [b]) (covers_top_low _ _ (by simp [encodeWord]))

theorem ldA (nnn : Addr) : Statement (.ldA nnn) := by
  exact congrArg (fun b => [b]) (covers_top _ _ (by simp [encodeWord]))

theorem jpV0 (nnn : Addr) : Statement (.jpV0 nnn) := by
  exact congrArg (fun b => [b]) (covers_top _ _ (by simp [encodeWord]))

theorem rnd (x : Reg) (nn : Byte) : Statement (.rnd x nn) := by
  exact congrArg (fun b => [b]) (covers_top _ _ (by simp [encodeWord]))

theorem drw (x y : Reg) (n : Nibble) : Statement (.drw x y n) := by
  exact congrArg (fun b => [b]) (covers_top _ _ (by simp [encodeWord]))

theorem skp (x : Reg) : Statement (.skp x) := by
  exact congrArg (fun b => [b]) (covers_top_byte _ _ (by simp [encodeWord]))

theorem sknp (x : Reg) : Statement (.sknp x) := by
  exact congrArg (fun b => [b]) (covers_top_byte _ _ (by simp [encodeWord]))

theorem ldGdt (x : Reg) : Statement (.ldGdt x) := by
  exact congrArg (fun b => [b]) (covers_top_byte _ _ (by simp [encodeWord]))

theorem ldKey (x : Reg) : Statement (.ldKey x) := by
  exact congrArg (fun b => [b]) (covers_top_byte _ _ (by simp [encodeWord]))

theorem ldSdt (x : Reg) : Statement (.ldSdt x) := by
  exact congrArg (fun b => [b]) (covers_top_byte _ _ (by simp [encodeWord]))

theorem ldSst (x : Reg) : Statement (.ldSst x) := by
  exact congrArg (fun b => [b]) (covers_top_byte _ _ (by simp [encodeWord]))

theorem addA (x : Reg) : Statement (.addA x) := by
  exact congrArg (fun b => [b]) (covers_top_byte _ _ (by simp [encodeWord]))

theorem ldFnt (x : Reg) : Statement (.ldFnt x) := by
  exact congrArg (fun b => [b]) (covers_top_byte _ _ (by simp [encodeWord]))

theorem bcd (x : Reg) : Statement (.bcd x) := by
  exact congrArg (fun b => [b]) (covers_top_byte _ _ (by simp [encodeWord]))

theorem stM (x : Reg) : Statement (.stM x) := by
  exact congrArg (fun b => [b]) (covers_top_byte _ _ (by simp [encodeWord]))

theorem ldM (x : Reg) : Statement (.ldM x) := by
  exact congrArg (fun b => [b]) (covers_top_byte _ _ (by simp [encodeWord]))

end Sys2Proof.Laws.InTable
end

