-- ==== Sys2Proof/Laws/Step.lean ====
section
/-! SUPPORT. What fetch and step can do: one equation per case of 40_step_cycle.md R70 and R71. -/

namespace Sys2Proof.Machine

/-- Fetching inside memory gives the two bytes at `pc` as a word and advances `pc` by 2. -/
theorem fetch_ok {s : State} (h : s.pc.toNat ≤ 0xFFE) :
    fetch s = .ok (wordOfBytes (s.readByte s.pc.toNat) (s.readByte (s.pc.toNat + 1)), s.setPc (s.pc + 2)) := by
  have h' : s.readBytes s.pc.toNat 2 = some [s.readByte s.pc.toNat, s.readByte (s.pc.toNat + 1)] :=
    State.readBytes_some (.inr (by simp only [Config.memSize]; omega))
  simp [fetch, h']

/-- Fetching beyond memory fails. -/
theorem fetch_error {s : State} (h : 0xFFE < s.pc.toNat) : fetch s = .error .addressOutOfRange := by
  have h' : s.readBytes s.pc.toNat 2 = none :=
    State.readBytes_none (by decide) (by simp only [Config.memSize]; omega)
  simp [fetch, h']

theorem step_halted {s : State} {e : Error} (h : s.run = .halted e) : step s = .next s := by
  simp [step, h, stepHalted]

theorem step_waiting {s : State} {r : Reg} (h : s.run = .awaitingKey r) : step s = .next s := by
  simp [step, h, stepWaiting]

theorem step_fetch_error {s : State} (h : s.run = .running) (hpc : 0xFFE < s.pc.toNat) :
    step s = .next (s.setRun (.halted .addressOutOfRange)) := by
  simp [step, h, fetch_error hpc, raise]

/-- A running step inside memory: the fetched word is decoded, and either `InvalidOpcode` is raised or the decoded
instruction is executed, both in the state with `pc` advanced. -/
theorem step_running {s : State} (h : s.run = .running) (hpc : s.pc.toNat ≤ 0xFFE) :
    step s =
      match decodeWord (wordOfBytes (s.readByte s.pc.toNat) (s.readByte (s.pc.toNat + 1))) with
      | .error _ => .next ((s.setPc (s.pc + 2)).setRun (.halted .invalidOpcode))
      | .ok i => exec i (s.setPc (s.pc + 2)) := by
  simp only [step, h, fetch_ok hpc]
  split <;> simp_all [decodeFailed, raise]

end Sys2Proof.Machine
end

