-- ==== Sys2Proof/Tests/Slice0.lean ====
section
/-! SUPPORT. The tests. Every expected value is from the spec: the encodings of 30_encoding.md, the vectors V30 to V46, K
and Z of 95_test_vectors.md, or a rule named beside it. The last part shows, for each statement with hypotheses, a
concrete state and operands that meet them. -/

namespace Sys2Proof.Tests

open Sys2Proof.Machine

/-! ### Well-formedness: a term each check refuses -/

/-- A register index of 16 does not fit 4 bits; 15 does (30_encoding.md R52). -/
theorem test_field_register : Field.wf ⟨16, 4⟩ = false ∧ Field.wf ⟨15, 4⟩ = true := by decide

/-- A byte of 256 does not fit 8 bits (R52). -/
theorem test_field_byte : Field.wf ⟨256, 8⟩ = false ∧ Field.wf ⟨255, 8⟩ = true := by decide

/-- An address of 0x1000 does not fit 12 bits (R52). -/
theorem test_field_address : Field.wf ⟨0x1000, 12⟩ = false ∧ Field.wf ⟨0xFFF, 12⟩ = true := by decide

/-- The word of an empty image, 00E0 with another nibble, 5XY1 and 8XYF spell no instruction (V30.1, V30.4, V41.17,
V42.52). -/
theorem test_word_not_instruction :
    Word.isInstruction 0x0000 = false ∧ Word.isInstruction 0x01E0 = false ∧ Word.isInstruction 0x5121 = false ∧
    Word.isInstruction 0x812F = false ∧ Word.isInstruction 0x00E0 = true := by decide

/-- An image of 3585 bytes does not fit, one of 3584 does (70_reset_and_hazards.md R171; Z4, Z5). -/
theorem test_image_fits :
    imageFits (List.replicate 3585 0) = false ∧ imageFits (List.replicate 3584 0) = true := by
  simp only [imageFits, List.length_replicate, Config.imageMax]
  decide

/-- A font table of 79 bytes is refused, the default one is not (10_state.md R25). -/
theorem test_font_size : fontWf (List.replicate 79 0) = false ∧ fontWf Config.fontTable.toList = true := by decide

/-- Key index 16 is outside the interface (60_exceptions.md R154; K12). -/
theorem test_key_index : keyIndexWf 16 = false ∧ keyIndexWf 15 = true := by decide

/-- A font at 0x1B1 would run into the program; at 0x1B0 it still fits, and at 0x050 (00_scope.md section 5). -/
theorem test_font_base : fontBaseWf 0x1B1 = false ∧ fontBaseWf 0x1B0 = true ∧ fontBaseWf Config.fontBase = true := by
  decide

/-- The memory form refuses a repeated address, falling addresses, an address above 0xFFF, and a cell equal to what an
unlisted address reads as. -/
theorem test_memory_form :
    Memory.wf [(0x300, 1), (0x300, 2)] = false ∧ Memory.wf [(0x301, 1), (0x300, 2)] = false ∧
    Memory.wf [(0x1000, 1)] = false ∧ Memory.wf [(0x300, 0)] = false ∧ Memory.wf [(0x050, 0xF0)] = false ∧
    Memory.wf [(0x050, 0xF1), (0x300, 1)] = true := by decide

/-! ### Decoding: one word for each instruction, written out from its encoding (30_encoding.md R54, R55) -/

theorem test_decode_cls : decodeWord 0b0000000011100000 = .ok (.cls) := by decide

theorem test_decode_ret : decodeWord 0b0000000011101110 = .ok (.ret) := by decide

theorem test_decode_jp : decodeWord 0b0001101010111100 = .ok (.jp 0xABC) := by decide

theorem test_decode_call : decodeWord 0b0010001100000110 = .ok (.call 0x306) := by decide

theorem test_decode_seI : decodeWord 0b0011001101000010 = .ok (.seI 3 0x42) := by decide

theorem test_decode_sneI : decodeWord 0b0100111100000001 = .ok (.sneI 0xF 0x01) := by decide

theorem test_decode_seR : decodeWord 0b0101000100100000 = .ok (.seR 1 2) := by decide

theorem test_decode_ldI : decodeWord 0b0110101001010101 = .ok (.ldI 0xA 0x55) := by decide

theorem test_decode_addI : decodeWord 0b0111000111111111 = .ok (.addI 1 0xFF) := by decide

theorem test_decode_ldR : decodeWord 0b1000111011110000 = .ok (.ldR 0xE 0xF) := by decide

theorem test_decode_orR : decodeWord 0b1000000100100001 = .ok (.orR 1 2) := by decide

theorem test_decode_andR : decodeWord 0b1000000100100010 = .ok (.andR 1 2) := by decide

theorem test_decode_xorR : decodeWord 0b1000000100100011 = .ok (.xorR 1 2) := by decide

theorem test_decode_addR : decodeWord 0b1000000100100100 = .ok (.addR 1 2) := by decide

theorem test_decode_sub : decodeWord 0b1000000100100101 = .ok (.sub 1 2) := by decide

theorem test_decode_shr : decodeWord 0b1000000100100110 = .ok (.shr 1 2) := by decide

theorem test_decode_subn : decodeWord 0b1000000100100111 = .ok (.subn 1 2) := by decide

theorem test_decode_shl : decodeWord 0b1000000100101110 = .ok (.shl 1 2) := by decide

theorem test_decode_sneR : decodeWord 0b1001000100100000 = .ok (.sneR 1 2) := by decide

theorem test_decode_ldA : decodeWord 0b1010001100010000 = .ok (.ldA 0x310) := by decide

theorem test_decode_jpV0 : decodeWord 0b1011001000000100 = .ok (.jpV0 0x204) := by decide

theorem test_decode_rnd : decodeWord 0b1100000100001111 = .ok (.rnd 1 0x0F) := by decide

theorem test_decode_drw : decodeWord 0b1101000100100101 = .ok (.drw 1 2 5) := by decide

theorem test_decode_skp : decodeWord 0b1110000110011110 = .ok (.skp 1) := by decide

theorem test_decode_sknp : decodeWord 0b1110000110100001 = .ok (.sknp 1) := by decide

theorem test_decode_ldGdt : decodeWord 0b1111000100000111 = .ok (.ldGdt 1) := by decide

theorem test_decode_ldKey : decodeWord 0b1111010100001010 = .ok (.ldKey 5) := by decide

theorem test_decode_ldSdt : decodeWord 0b1111000100010101 = .ok (.ldSdt 1) := by decide

theorem test_decode_ldSst : decodeWord 0b1111000100011000 = .ok (.ldSst 1) := by decide

theorem test_decode_addA : decodeWord 0b1111001000011110 = .ok (.addA 2) := by decide

theorem test_decode_ldFnt : decodeWord 0b1111000100101001 = .ok (.ldFnt 1) := by decide

theorem test_decode_bcd : decodeWord 0b1111000100110011 = .ok (.bcd 1) := by decide

theorem test_decode_stM : decodeWord 0b1111001101010101 = .ok (.stM 3) := by decide

theorem test_decode_ldM : decodeWord 0b1111001001100101 = .ok (.ldM 2) := by decide

/-- The bytes of 0x6A55 and a byte after them: the high byte comes first (30_encoding.md R50; V40.1). -/
theorem test_decode_bytes :
    decode [0x6A, 0x55, 0x77] = .ok (.ldI 0xA 0x55, [0x77]) ∧ decode [0x6A] = .error .truncated := by decide

/-- The edges of the invalid words (V30.2, V30.5, V30.8, V30.12, V30.15, V30.20). -/
theorem test_decode_invalid :
    decodeWord 0x00E1 = .error (.invalidOpcode 0x00E1) ∧ decodeWord 0x0FEE = .error (.invalidOpcode 0x0FEE) ∧
    decodeWord 0x5001 = .error (.invalidOpcode 0x5001) ∧ decodeWord 0x800F = .error (.invalidOpcode 0x800F) ∧
    decodeWord 0xE09D = .error (.invalidOpcode 0xE09D) ∧ decodeWord 0xF10B = .error (.invalidOpcode 0xF10B) := by
  decide

/-- The host's numbering: bits 15 to 0 are the word. -/
theorem test_decodeTableWord :
    decodeTableWord 16 0x8124 = some (.addR 1 2) ∧ decodeTableWord 16 0x8128 = none := by decide

/-! ### One step

`stepped w s` places word `w` at `pc` and applies one `Step()`. -/

/-- The next state of one step that runs word `w`. -/
def stepped (w : Nat) (s : State) : Option State :=
  match step (s.withFetchWord 16 w) with
  | .next t => some t
  | .fault _ => none
  | .refused _ => none

/-- The reset state with some registers set. -/
def regs (l : List (Reg × Byte)) : State := l.foldl (fun s p => s.setV p.1 p.2) State.reset

/-- The state with bytes placed in memory. -/
def placed (s : State) (a : Nat) (bs : List Byte) : State := s.setMem (s.mem.writeAll a bs)

/-- The reset state with n entries on the stack, all 0x202. -/
def deep (n : Nat) : State := State.reset.setStack (List.replicate n 0x202)

/-- The reset state with `pc` moved. -/
def atPc (a : Word) : State := State.reset.setPc a

/-- The reset state with `I` moved. -/
def atI (a : Word) : State := State.reset.setI a

/-- The reset state with one pixel on. -/
def lit (x : Fin 64) (y : Fin 32) : State := State.reset.setFb (Screen.blank.flip x y)

/-- V44.1: a lit pixel goes off, VF is untouched. -/
theorem test_cls :
    (stepped 0x00E0 ((lit 5 7).setV 15 1)).map (fun t => (t.fb.pixel 5 7, t.getV 15, t.pc)) =
      some (false, 1, 0x202) := by decide

/-- V41.1: the newest entry is popped. -/
theorem test_ret :
    (stepped 0x00EE ((atPc 0x400).setStack [0x208, 0x30A])).map (fun t => (t.pc, t.stack)) =
      some (0x30A, [0x208]) := by decide

/-- V41.2: the empty stack. -/
theorem test_ret_empty :
    (stepped 0x00EE State.reset).map (fun t => (t.pc, t.run)) =
      some (0x202, .halted .stackUnderflow) := by decide

/-- V41.5: the largest target. -/
theorem test_jp :
    (stepped 0x1FFF State.reset).map (fun t => (t.pc, t.run)) =
      some (0xFFF, .running) := by decide

/-- V41.9: the pushed value may be 0x1000. -/
theorem test_call :
    (stepped 0x2ABC (atPc 0xFFE)).map (fun t => (t.pc, t.stack)) =
      some (0xABC, [0x1000]) := by decide

/-- V41.8: a full stack. -/
theorem test_call_full :
    (stepped 0x2300 (deep 16)).map (fun t => (t.pc, t.stack.length, t.run)) =
      some (0x202, 16, .halted .stackOverflow) := by decide

/-- V41.10: equal, skip. -/
theorem test_seI :
    (stepped 0x3342 (regs [(3, 0x42)])).map (fun t => t.pc) =
      some 0x204 := by decide

/-- V41.11: not equal. -/
theorem test_seI_not :
    (stepped 0x3342 (regs [(3, 0x43)])).map (fun t => t.pc) =
      some 0x202 := by decide

/-- V41.13: not equal, skip. -/
theorem test_sneI :
    (stepped 0x4342 (regs [(3, 0x43)])).map (fun t => t.pc) =
      some 0x204 := by decide

/-- V41.12: equal. -/
theorem test_sneI_not :
    (stepped 0x4342 (regs [(3, 0x42)])).map (fun t => t.pc) =
      some 0x202 := by decide

/-- V41.14. -/
theorem test_seR :
    (stepped 0x5120 (regs [(1, 0x7E), (2, 0x7E)])).map (fun t => t.pc) =
      some 0x204 := by decide

/-- V41.15. -/
theorem test_seR_not :
    (stepped 0x5120 (regs [(1, 0x7E), (2, 0x7F)])).map (fun t => t.pc) =
      some 0x202 := by decide

/-- V41.18. -/
theorem test_sneR :
    (stepped 0x9120 (regs [(1, 0x7E), (2, 0x7F)])).map (fun t => t.pc) =
      some 0x204 := by decide

/-- V41.20: X = Y never skips. -/
theorem test_sneR_same :
    (stepped 0x9AA0 (regs [(0xA, 0x99)])).map (fun t => t.pc) =
      some 0x202 := by decide

/-- V41.23: the sum is not masked. -/
theorem test_jpV0 :
    (stepped 0xBFFF (regs [(0, 0xFF)])).map (fun t => (t.pc, t.run)) =
      some (0x10FE, .running) := by decide

/-- V42.2: VF as a plain destination. -/
theorem test_ldI :
    (stepped 0x6F12 (regs [(15, 1)])).map (fun t => (t.getV 15, t.pc)) =
      some (0x12, 0x202) := by decide

/-- V42.4: wraps, VF untouched. -/
theorem test_addI :
    (stepped 0x7102 (regs [(1, 0xFF), (15, 0x77)])).map (fun t => (t.getV 1, t.getV 15)) =
      some (0x01, 0x77) := by decide

/-- V42.8. -/
theorem test_ldR :
    (stepped 0x8120 (regs [(1, 0x11), (2, 0x9C)])).map (fun t => (t.getV 1, t.getV 2)) =
      some (0x9C, 0x9C) := by decide

/-- V42.11: VF untouched. -/
theorem test_orR :
    (stepped 0x8121 (regs [(1, 0x5A), (2, 0xA5), (15, 0x33)])).map (fun t => (t.getV 1, t.getV 15)) =
      some (0xFF, 0x33) := by decide

/-- V42.12. -/
theorem test_andR :
    (stepped 0x8122 (regs [(1, 0x5A), (2, 0x3C), (15, 0x33)])).map (fun t => (t.getV 1, t.getV 15)) =
      some (0x18, 0x33) := by decide

/-- V42.13. -/
theorem test_xorR :
    (stepped 0x8123 (regs [(1, 0x5A), (2, 0x3C), (15, 0x33)])).map (fun t => (t.getV 1, t.getV 15)) =
      some (0x66, 0x33) := by decide

/-- V42.17, the source's example T3. -/
theorem test_addR :
    (stepped 0x8124 (regs [(1, 0xFF), (2, 0x01)])).map (fun t => (t.getV 1, t.getV 15)) =
      some (0x00, 0x01) := by decide

/-- V42.24: X = Y = F, the result wins. -/
theorem test_addR_flag_operand :
    (stepped 0x8FF4 (regs [(15, 0x90)])).map (fun t => t.getV 15) =
      some 0x20 := by decide

/-- V42.25, the source's example T4. -/
theorem test_sub :
    (stepped 0x8125 (regs [(1, 0x01), (2, 0x02), (15, 0x01)])).map (fun t => (t.getV 1, t.getV 15)) =
      some (0xFF, 0x00) := by decide

/-- V42.30: Y = F, the old VF is the operand. -/
theorem test_sub_flag_operand :
    (stepped 0x81F5 (regs [(1, 0x05), (15, 0x09)])).map (fun t => (t.getV 1, t.getV 15)) =
      some (0xFC, 0x00) := by decide

/-- V42.32: V[Y] is shifted, right. -/
theorem test_shr :
    (stepped 0x8126 (regs [(1, 0xAA), (2, 0x05)])).map (fun t => (t.getV 1, t.getV 2, t.getV 15)) =
      some (0x02, 0x05, 0x01) := by decide

/-- V42.37: X = F, the result wins. -/
theorem test_shr_into_flag :
    (stepped 0x8F26 (regs [(2, 0x07)])).map (fun t => t.getV 15) =
      some 0x03 := by decide

/-- V42.40: V[Y] - V[X]. -/
theorem test_subn :
    (stepped 0x8127 (regs [(1, 0x02), (2, 0x01), (15, 0x01)])).map (fun t => (t.getV 1, t.getV 15)) =
      some (0xFF, 0x00) := by decide

/-- V42.43: X = F. -/
theorem test_subn_into_flag :
    (stepped 0x8F17 (regs [(15, 0x01), (1, 0x05)])).map (fun t => t.getV 15) =
      some 0x04 := by decide

/-- V42.45. -/
theorem test_shl :
    (stepped 0x812E (regs [(1, 0xAA), (2, 0x81)])).map (fun t => (t.getV 1, t.getV 15)) =
      some (0x02, 0x01) := by decide

/-- V42.50: Y = F. -/
theorem test_shl_flag_operand :
    (stepped 0x81FE (regs [(15, 0xFF)])).map (fun t => (t.getV 1, t.getV 15)) =
      some (0xFE, 0x01) := by decide

/-- V42.54: NN = 0 gives 0 for every draw; the draw is a free value. -/
theorem test_rnd_masked : (stepped 0xC100 (regs [(1, 0xEE)])).map (fun t => t.getV 1) = some 0 :=
  congrArg some (BitVec.and_zero (x := Config.randomByte 0))

/-- V42.53: VF is untouched. -/
theorem test_rnd_frame : (stepped 0xC10F (regs [(15, 0x44)])).map (fun t => (t.getV 15, t.pc)) = some (0x44, 0x202) := rfl

/-- V43.1: the largest value. -/
theorem test_ldA :
    (stepped 0xAFFF State.reset).map (fun t => (t.i, t.pc)) =
      some (0xFFF, 0x202) := by decide

/-- V43.3: wraps at 12 bits, VF untouched. -/
theorem test_addA :
    (stepped 0xF11E ((regs [(1, 0x03), (15, 0x55)]).setI 0xFFE)).map (fun t => (t.i, t.getV 15)) =
      some (0x001, 0x55) := by decide

/-- V43.9: only the low nibble counts. -/
theorem test_ldFnt :
    (stepped 0xF129 (regs [(1, 0xFA)])).map (fun t => t.i) =
      some 0x082 := by decide

/-- V43.12: 254. -/
theorem test_bcd :
    (stepped 0xF133 ((regs [(1, 0xFE)]).setI 0x300)).map (fun t => (t.readByte 0x300, t.readByte 0x301, t.readByte 0x302, t.readByte 0x303)) =
      some (2, 5, 4, 0) := by decide

/-- V43.17: an error before any write. -/
theorem test_bcd_beyond :
    (stepped 0xF133 ((regs [(1, 0xFF)]).setI 0xFFE)).map (fun t => (t.readByte 0xFFE, t.readByte 0xFFF, t.run)) =
      some (0, 0, .halted .addressOutOfRange) := by decide

/-- V43.25: the bytes may straddle 0x1FF and 0x200. -/
theorem test_stM :
    (stepped 0xF155 ((regs [(0, 0x12), (1, 0x34)]).setI 0x1FF)).map (fun t => (t.readByte 0x1FF, t.readByte 0x200, t.readByte 0x201, t.i)) =
      some (0x12, 0x34, 0x55, 0x1FF) := by decide

/-- V43.24: nothing is stored. -/
theorem test_stM_beyond :
    (stepped 0xF155 ((regs [(0, 0x77), (1, 0x88)]).setI 0xFFF)).map (fun t => (t.readByte 0xFFF, t.run)) =
      some (0, .halted .addressOutOfRange) := by decide

/-- V43.26: V3 untouched, I stays. -/
theorem test_ldM :
    (stepped 0xF265 (placed ((regs [(3, 0x99)]).setI 0x300) 0x300 [0xDE, 0xAD, 0xBE, 0xEF])).map (fun t => (t.getV 0, t.getV 1, t.getV 2, t.getV 3, t.i)) =
      some (0xDE, 0xAD, 0xBE, 0x99, 0x300) := by decide

/-- V43.29: no register is loaded. -/
theorem test_ldM_beyond :
    (stepped 0xF265 (placed ((regs [(0, 1)]).setI 0xFFE) 0xFFE [0xAA, 0xBB])).map (fun t => (t.getV 0, t.run)) =
      some (1, .halted .addressOutOfRange) := by decide

/-- V44.11: both coordinates wrap. -/
theorem test_drw_wrap :
    (stepped 0xD121 (placed ((regs [(1, 0xFF), (2, 0xFF)]).setI 0x300) 0x300 [0xC0])).map (fun t => (t.fb.pixel 63 31, t.fb.pixel 0 31, t.fb.pixel 1 31, t.getV 15)) =
      some (true, true, false, 0) := by decide

/-- V44.9: one pixel off, one on. -/
theorem test_drw_collision :
    (stepped 0xD011 (placed ((lit 0 0).setI 0x300) 0x300 [0xC0])).map (fun t => (t.fb.pixel 0 0, t.fb.pixel 1 0, t.getV 15)) =
      some (false, true, 1) := by decide

/-- V46.3: the low nibble names the key. -/
theorem test_skp :
    (stepped 0xE19E ((regs [(1, 0x15)]).setKeys (State.reset.keys.set 5 true))).map (fun t => t.pc) =
      some 0x204 := by decide

/-- V46.4: other keys do not matter. -/
theorem test_skp_not :
    (stepped 0xE19E ((regs [(1, 0x05)]).setKeys (State.reset.keys.set 4 true))).map (fun t => t.pc) =
      some 0x202 := by decide

/-- V46.6. -/
theorem test_sknp :
    (stepped 0xE1A1 (regs [(1, 0x05)])).map (fun t => t.pc) =
      some 0x204 := by decide

/-- V46.7. -/
theorem test_sknp_not :
    (stepped 0xE1A1 ((regs [(1, 0xF5)]).setKeys (State.reset.keys.set 5 true))).map (fun t => t.pc) =
      some 0x202 := by decide

/-- V45.1. -/
theorem test_ldGdt :
    (stepped 0xF107 ((regs [(1, 0x99)]).setDt 0x2A)).map (fun t => (t.getV 1, t.dt)) =
      some (0x2A, 0x2A) := by decide

/-- V45.4. -/
theorem test_ldSdt :
    (stepped 0xF115 ((regs [(1, 0xFF)]).setDt 0x03)).map (fun t => (t.dt, t.st)) =
      some (0xFF, 0) := by decide

/-- V45.6. -/
theorem test_ldSst :
    (stepped 0xF118 (regs [(1, 0x3C)])).map (fun t => (t.st, t.dt)) =
      some (0x3C, 0) := by decide

/-- V46.12: a held key does not satisfy the wait. -/
theorem test_ldKey :
    (stepped 0xF10A (State.reset.setKeys (State.reset.keys.set 3 true))).map (fun t => (t.run, t.getV 1, t.pc)) =
      some (.awaitingKey 1, 0, 0x202) := by decide

/-- V30.1: the word of an empty image. -/
theorem test_invalid :
    (stepped 0x0000 State.reset).map (fun t => (t.pc, t.run)) =
      some (0x202, .halted .invalidOpcode) := by decide

/-- V40.1: an odd pc is legal. -/
theorem test_fetch_odd :
    (stepped 0x6A55 (atPc 0x201)).map (fun t => (t.getV 0xA, t.pc)) =
      some (0x55, 0x203) := by decide

/-- V40.4: the last address at which a fetch succeeds. -/
theorem test_fetch_last :
    (stepped 0x6A55 (atPc 0xFFE)).map (fun t => (t.getV 0xA, t.pc)) =
      some (0x55, 0x1000) := by decide

/-- V40.5: a fetch at 0xFFF fails; `pc` stays. -/
theorem test_fetch_beyond : (match step (atPc 0xFFF) with
    | .next t => some (t.pc, t.run)
    | .fault _ => none
    | .refused _ => none) = some (0xFFF, .halted .addressOutOfRange) := by decide

/-! ### The other operations -/

/-- K2, K4: each timer on its own, floored at 0. -/
theorem test_tick :
    (tick ((State.reset.setDt 0x01).setSt 0x00)).dt = 0 ∧ (tick ((State.reset.setDt 0x01).setSt 0x00)).st = 0 ∧
    (tick ((State.reset.setDt 0xFF).setSt 0x02)).dt = 0xFE ∧ (tick ((State.reset.setDt 0xFF).setSt 0x02)).st = 0x01 := by
  decide

/-- The key wait of 95_test_vectors.md section 3.8, operation 8: the press of key 3 lands in V5. -/
theorem test_key_event :
    (setKey 3 true (State.reset.setRun (.awaitingKey 5))).getV 5 = 3 ∧
    (setKey 3 true (State.reset.setRun (.awaitingKey 5))).run = .running := by decide

/-- Operation 4 of that trace: a release is no event. -/
theorem test_key_release : (setKey 3 false (State.reset.setRun (.awaitingKey 5))).run = .awaitingKey 5 := by decide

/-- K12: key 16 is refused. -/
theorem test_key_refused : setKeyIndex 16 true State.reset = .refused (.keyIndexOutOfRange 16) := rfl

/-- Z3: three bytes are placed without padding or swapping, and the font stands at 0x050. -/
theorem test_reset_image :
    (resetTo Config.fontTable [0x01, 0x08, 0x0F] State.reset).mem.readAll 0x200 4 = [0x01, 0x08, 0x0F, 0x00] ∧
    (resetTo Config.fontTable [0x01, 0x08, 0x0F] State.reset).mem.readAll 0x050 5 = [0xF0, 0x90, 0x90, 0x90, 0xF0] := by
  decide +kernel

/-- R143, R171, Z5: a Reset with 3585 bytes reports ImageTooLarge, code 1; with 3584 bytes it reports nothing (Z4). -/
theorem test_reset_report :
    resetReport (List.replicate 3585 0) = some (.error .imageTooLarge) ∧
    (Report.error .imageTooLarge).code = some 1 ∧ resetReport (List.replicate 3584 0) = none := by
  simp only [resetReport, imageFits, List.length_replicate]
  decide

/-- P5a: RET with an empty stack reports StackUnderflow, code 3. -/
theorem test_step_report :
    operationReport .step (State.reset.withFetchWord 16 0x00EE) = some (.error .stackUnderflow) ∧
    (Report.error .stackUnderflow).code = some 3 ∧ operationReport .tick State.reset = none := by decide

/-- R156, R157: the sound output is on while ST > 0. -/
theorem test_sound : soundOn (observe (State.reset.setSt 1)) = true ∧ soundOn (observe State.reset) = false := by decide

/-! ### Witnesses: the hypotheses of the statements are met -/

theorem witness_EncodeOfDecode : decodeWord 0x8124 = .ok (.addR 1 2) := by decide

theorem witness_DecodeAgreesWithOpcodeMap :
    decodeWord 0xFF65 = .ok (.ldM 0xF) ∧ decodeWord 0x0000 = .error (.invalidOpcode 0x0000) := by decide

theorem witness_InvalidWordsAreTheSpecs :
    decodeWord 0x0FFF = .error (.invalidOpcode 0x0FFF) ∧ decodeWord 0x5FFF = .error (.invalidOpcode 0x5FFF) ∧
    decodeWord 0x8008 = .error (.invalidOpcode 0x8008) ∧ decodeWord 0x9001 = .error (.invalidOpcode 0x9001) ∧
    decodeWord 0xEFFF = .error (.invalidOpcode 0xEFFF) ∧ decodeWord 0xF000 = .error (.invalidOpcode 0xF000) ∧
    decodeWord 0x00E0 ≠ .error (.invalidOpcode 0x00E0) := by decide

theorem witness_ResetStateValues :
    State.reset.readByte 0x04F = 0 ∧ State.reset.readByte 0x0A0 = 0 ∧ State.reset.readByte 0x050 = 0xF0 ∧
    State.reset.readByte (0x050 + 5 * 15 + 4) = 0x80 := by decide

theorem witness_ResetPlacesFontAndImage :
    (List.replicate 3584 (1 : Byte)).length ≤ 3584 ∧ 3583 < (List.replicate 3584 (1 : Byte)).length ∧
    0x200 + (List.replicate 3584 (1 : Byte)).length ≤ 0x1000 := by
  simp only [List.length_replicate]
  decide

theorem witness_ResetWithLargeImageHalts :
    3584 < (List.replicate 3585 (1 : Byte)).length := by
  simp only [List.length_replicate]
  decide

/-- The reset state with the word of 00E0 at `pc` = 0xFFE, the last place for an instruction. -/
def clsAtEnd : State := (atPc 0xFFE).withFetchWord 16 0x00E0

theorem witness_StepRunsDecodedInstruction :
    clsAtEnd.run = .running ∧ clsAtEnd.pc.toNat ≤ 0xFFE ∧
    decodeWord (wordOfBytes (clsAtEnd.readByte clsAtEnd.pc.toNat) (clsAtEnd.readByte (clsAtEnd.pc.toNat + 1))) =
      .ok .cls := by decide

theorem witness_FetchReadsBigEndianOrFails :
    (atPc 0xFFE).pc.toNat ≤ 0xFFE ∧ 0xFFE < (atPc 0xFFF).pc.toNat ∧ (atPc 0xFFF).run = .running := by decide

theorem witness_InvalidWordRaises :
    (atPc 0xFFE).run = .running ∧ (atPc 0xFFE).pc.toNat ≤ 0xFFE ∧
    decodeWord (wordOfBytes ((atPc 0xFFE).readByte (atPc 0xFFE).pc.toNat)
      ((atPc 0xFFE).readByte ((atPc 0xFFE).pc.toNat + 1))) = .error (.invalidOpcode 0x0000) := by decide

theorem witness_StepReportsAndFrozenStates :
    (State.reset.setRun (.awaitingKey 5)).run = .awaitingKey 5 ∧
    (State.reset.setRun (.halted .stackOverflow)).run = .halted .stackOverflow ∧
    State.reset.run = .running ∧ step State.reset = .next ((atPc 0x202).setRun (.halted .invalidOpcode)) ∧
    clsAtEnd.run = .running ∧ step clsAtEnd = .next (clsAtEnd.setPc 0x1000) := ⟨rfl, rfl, rfl, rfl, rfl, rfl⟩

theorem witness_StepRunsEncodedBytes :
    clsAtEnd.run = .running ∧ clsAtEnd.pc.toNat ≤ 0xFFE ∧
    [clsAtEnd.readByte clsAtEnd.pc.toNat, clsAtEnd.readByte (clsAtEnd.pc.toNat + 1)] = encode .cls := by decide

/-- FX55 with X = 1 at the top of memory: V[0], V[1] hold 6A 55 and I = pc = 0xFFE. -/
def storing : State := ((regs [(0, 0x6A), (1, 0x55)]).setI 0xFFE).setPc 0xFFE

theorem witness_StoredInstructionRunsNext :
    storing.run = .running ∧ 1 ≤ (1 : Reg).val ∧ storing.i = storing.pc ∧ storing.i.toNat + (1 : Reg).val ≤ 0xFFF ∧
    [storing.getV 0, storing.getV 1] = encode (.ldI 0xA 0x55) := by decide

theorem witness_CallPushesReturnAddress : (deep 15).stack.length < 16 ∧ 16 ≤ (deep 16).stack.length := by decide

theorem witness_ReturnPopsStack :
    (deep 1).stack = [] ++ [0x202] ∧ (deep 16).stack = (deep 15).stack ++ [0x202] ∧ (deep 0).stack = [] := by decide

theorem witness_CallThenReturnRestores : (deep 15).stack.length < 16 := by decide

theorem witness_SkipsOnKey :
    (0xF : Key).val = ((regs [(3, 0xFF)]).getV 3).toNat % 16 ∧ (0 : Key).val = ((regs [(3, 0x10)]).getV 3).toNat % 16 := by decide

theorem witness_SkipsOnImmediate : (regs [(3, 0xFF)]).getV 3 = 0xFF ∧ (regs [(3, 0xFF)]).getV 3 ≠ 0x00 := by decide

theorem witness_SkipsOnRegisters :
    (regs [(1, 0xFF), (2, 0xFF)]).getV 1 = (regs [(1, 0xFF), (2, 0xFF)]).getV 2 ∧
    (regs [(1, 0xFF)]).getV 1 ≠ (regs [(1, 0xFF)]).getV 2 := by decide

theorem witness_BitwiseLogic : (7 : Nat) < 8 ∧ ((regs [(1, 0x80)]).getV 1).getLsbD 7 = true := by
  decide

theorem witness_AddRegisterWithCarry :
    (1 : Reg) ≠ flagReg ∧ ¬ (255 < ((regs [(1, 0x7F), (2, 0x80)]).getV 1).toNat +
      ((regs [(1, 0x7F), (2, 0x80)]).getV 2).toNat) ∧
    255 < ((regs [(1, 0x80), (2, 0x80)]).getV 1).toNat + ((regs [(1, 0x80), (2, 0x80)]).getV 2).toNat := by decide

theorem witness_SubtractWithBorrow :
    (1 : Reg) ≠ flagReg ∧ ((regs [(1, 0xFF), (2, 0xFF)]).getV 2).toNat ≤ ((regs [(1, 0xFF), (2, 0xFF)]).getV 1).toNat ∧
    ¬ ((regs [(2, 0x01)]).getV 2).toNat ≤ ((regs [(2, 0x01)]).getV 1).toNat := by decide

theorem witness_ShiftSourceIntoX : (14 : Reg) ≠ flagReg := by decide

theorem witness_RandomByteIsMasked : (7 : Nat) < 8 ∧ (0x7F : Byte).getLsbD 7 = false := by decide

theorem witness_GlyphAddressOfLowNibble : (4 : Nat) < 5 ∧ ((regs [(1, 0xFF)]).getV 1).toNat % 16 = 15 := by decide

theorem witness_DecimalDigitsStored : (atI 0xFFD).i.toNat + 2 ≤ 0xFFF ∧ 0xFFF < (atI 0xFFE).i.toNat + 2 := by decide

theorem witness_RegistersStored :
    (atI 0xFF0).i.toNat + (15 : Reg).val ≤ 0xFFF ∧ 0xFFF < (atI 0xFF1).i.toNat + (15 : Reg).val ∧
    (15 : Reg).val ≤ (15 : Reg).val ∧ (0 : Nat) < (atI 0xFF0).i.toNat := by decide

theorem witness_RegistersLoaded :
    (atI 0xFFF).i.toNat + (0 : Reg).val ≤ 0xFFF ∧ 0xFFF < (atI 0xFFF).i.toNat + (1 : Reg).val := by decide

theorem witness_StoreThenLoadGivesBack : (atI 0xFF0).i.toNat + (15 : Reg).val ≤ 0xFFF := by decide

theorem witness_MemoryFormIsCanonical :
    Memory.wf [(0x050, 0), (0xFFF, 0xFF)] = true ∧
    ∀ a, Memory.read [(0x050, 0), (0xFFF, 0xFF)] a = Memory.read [(0x050, 0), (0xFFF, 0xFF)] a := ⟨by decide, fun _ => rfl⟩

/-- One row C0 at the top of memory, I = 0xFFF, one pixel on. -/
def sprite : State := placed ((lit 1 0).setI 0xFFF) 0xFFF [0xC0]

theorem witness_DrawXorsSprite_fits :
    ((0 : Nibble).toNat = 0 ∨ sprite.i.toNat + (0 : Nibble).toNat - 1 ≤ 0xFFF) ∧
    ((1 : Nibble).toNat = 0 ∨ sprite.i.toNat + (1 : Nibble).toNat - 1 ≤ 0xFFF) := by decide

theorem witness_DrawXorsSprite_collides :
    Spec.UnderSprite sprite 0 0 1 1 0 ∧ sprite.fb.pixel 1 0 = true := ⟨⟨0, 1, by decide, by decide, by decide, by decide, by decide⟩, by decide⟩

theorem witness_DrawXorsSprite_outside : ¬ Spec.UnderSprite sprite 0 0 1 2 0 := by
  rintro ⟨r, c, hr, hc, hx, -, hb⟩
  have hr' : r = 0 := by
    have h : r < 1 := hr
    omega
  have hx' : 2 = (0 + c) % 64 := hx
  have hc' : c = 2 := by omega
  subst hr'
  subst hc'
  exact absurd hb (by decide)

theorem witness_DrawXorsSprite_no_collision :
    ∀ px py, Spec.UnderSprite State.reset 0 0 0 px py → State.reset.fb.pixel px py = false := by
  rintro px py ⟨r, _, hr, _⟩
  exact absurd hr (Nat.not_lt_zero r)

theorem witness_DrawBeyondMemoryRaises :
    1 ≤ (2 : Nibble).toNat ∧ 0xFFF < (atI 0xFFF).i.toNat + (2 : Nibble).toNat - 1 := by decide

theorem witness_DrawTwiceRestores :
    (1 : Reg) ≠ flagReg ∧ (14 : Reg) ≠ flagReg ∧
    ((15 : Nibble).toNat = 0 ∨ (atI 0xFF1).i.toNat + (15 : Nibble).toNat - 1 ≤ 0xFFF) := by decide

theorem witness_SoundTimerSetAndNeverRead : ∀ x, Instr.ldSdt 1 ≠ .ldSst x := by
  intro x h
  cases h

theorem witness_TimersCountDown :
    exec (.ldSdt 1) (regs [(1, 5)]) = .next ((regs [(1, 5)]).setDt 5) ∧ (∀ x, Instr.ldSdt 1 ≠ .ldSst x) ∧
    exec .cls State.reset = .next State.reset ∧ ∀ x, Instr.cls ≠ .ldSdt x := by
  refine ⟨rfl, ?_, rfl, ?_⟩ <;> intro x h <;> cases h

theorem witness_TickCommutesWithExecution :
    (∀ x, Instr.cls ≠ .ldGdt x) ∧ (∀ x, Instr.cls ≠ .ldSdt x) ∧ ∀ x, Instr.cls ≠ .ldSst x := by
  refine ⟨?_, ?_, ?_⟩ <;> intro x h <;> cases h

/-- The core waits for a key into V5, key 3 is down. -/
def waiting : State := (State.reset.setKeys (State.reset.keys.set 3 true)).setRun (.awaitingKey 5)

theorem witness_SetKeyStoresAndCompletes :
    waiting.run = .awaitingKey 5 ∧ waiting.keyDown 15 = false ∧ waiting.keyDown 3 = true ∧ (∀ r, State.reset.run ≠ .awaitingKey r) ∧
    (4 : Key) ≠ 3 ∧ 16 ≤ (16 : Nat) := by
  refine ⟨by decide, by decide, by decide, ?_, by decide, by decide⟩
  intro r h
  cases h

/-- A step, a tick, an observation and a release. -/
def idle : List Operation := [.step, .tick, .observe, .setKey 3 false]

theorem witness_KeyWaitLasts :
    (∀ op ∈ idle, Spec.KeepsWaiting op) ∧ waiting.run = .awaitingKey 5 ∧
    performAll idle waiting = .next (State.reset.setRun (.awaitingKey 5)) := by
  refine ⟨?_, rfl, rfl⟩
  intro op h
  simp only [idle, List.mem_cons, List.not_mem_nil, or_false] at h
  rcases h with rfl | rfl | rfl | rfl
  · exact .inl rfl
  · exact .inr (.inl rfl)
  · exact .inr (.inr (.inl rfl))
  · exact .inr (.inr (.inr ⟨3, rfl⟩))

theorem witness_KeysMatterOnlyToKeySkips :
    (∀ x, Instr.ldKey 1 ≠ .skp x) ∧ ∀ x, Instr.ldKey 1 ≠ .sknp x := by
  refine ⟨?_, ?_⟩ <;> intro x h <;> cases h

/-- A state at the edge of the invariant: a full stack of the largest entries, I = 0xFFF, pc = 0x10FE, one cell. -/
def edge : State := (((State.reset.setI 0xFFF).setPc 0x10FE).setMem [(0xFFF, 1)]).setStack (List.replicate 16 0x1000)

theorem witness_StepKeepsInvariant :
    edge.Inv ∧ step edge = .next (edge.setRun (.halted .addressOutOfRange)) := by
  refine ⟨⟨by decide, by decide, by decide, fun a h => ?_, by decide⟩, step_fetch_error rfl (by decide)⟩
  rw [List.eq_of_mem_replicate h]
  decide

/-- FX55 with X = 0 at 0x200, I = 0xFFF, V[0] = 7, a full stack of the largest entries. -/
def storeAtTop : State :=
  (((regs [(0, 7)]).setI 0xFFF).setMem [(0x200, 0xF0), (0x201, 0x55)]).setStack (List.replicate 16 0x1000)

/-- An instruction executes from a state that meets the invariant: the store adds a cell. -/
theorem witness_StepKeepsInvariant_store :
    storeAtTop.Inv ∧
    step storeAtTop = .next ((storeAtTop.setMem [(0x200, 0xF0), (0x201, 0x55), (0xFFF, 7)]).setPc 0x202) := by
  refine ⟨⟨by decide, by decide, by decide, fun a h => ?_, by decide⟩, rfl⟩
  rw [List.eq_of_mem_replicate h]
  decide

theorem witness_OperationsKeepInvariant :
    State.reset.Inv ∧ performAll [.step, .tick, .setKey 15 true] State.reset =
    .next (((atPc 0x202).setRun (.halted .invalidOpcode)).setKeys (State.reset.keys.set 15 true)) := by
  refine ⟨⟨by decide, by decide, by decide, fun a h => ?_, by decide⟩, rfl⟩
  cases h

theorem witness_OnlyTheseInstructionsWrite :
    exec (.ldA 0xFFF) State.reset = .next (atI 0xFFF) ∧ (atI 0xFFF).i ≠ State.reset.i ∧
    exec (.ldSdt 1) (regs [(1, 5)]) = .next ((regs [(1, 5)]).setDt 5) ∧ ((regs [(1, 5)]).setDt 5).dt ≠ (regs [(1, 5)]).dt ∧
    exec (.call 0x300) State.reset = .next ((atPc 0x300).setStack [0x200]) := ⟨rfl, by decide, rfl, by decide, rfl⟩

theorem witness_OnlyTheseInstructionsWrite_memory :
    exec (.stM 0) ((regs [(0, 7)]).setI 0xFFF) = .next (placed ((regs [(0, 7)]).setI 0xFFF) 0xFFF [7]) ∧
    (placed ((regs [(0, 7)]).setI 0xFFF) 0xFFF [7]).readByte 0xFFF ≠ ((regs [(0, 7)]).setI 0xFFF).readByte 0xFFF := ⟨rfl, by decide⟩

theorem witness_OnlyTheseInstructionsWrite_pixels :
    exec .cls (lit 5 7) = .next State.reset ∧ State.reset.fb.pixel 5 7 ≠ (lit 5 7).fb.pixel 5 7 := ⟨rfl, by decide⟩

theorem witness_OnlyTheseInstructionsWrite_draws :
    exec (.rnd 1 0xFF) State.reset = .next ((State.reset.setV 1 (State.reset.drawnByte &&& 0xFF)).setDraws 1) ∧
    ((State.reset.setV 1 (State.reset.drawnByte &&& 0xFF)).setDraws 1).draws ≠ State.reset.draws := ⟨rfl, by decide⟩

theorem witness_OnlyTheseInstructionsWrite_sound :
    exec (.ldSst 1) (regs [(1, 5)]) = .next ((regs [(1, 5)]).setSt 5) ∧ ((regs [(1, 5)]).setSt 5).st ≠ (regs [(1, 5)]).st ∧
    ((atPc 0x300).setStack [0x200]).stack ≠ State.reset.stack := ⟨rfl, by decide, by decide⟩

theorem witness_OnlyDestinationsAreWritten :
    exec (.ldI 1 0x55) State.reset = .next (regs [(1, 0x55)]) ∧ (15 : Reg) ∉ Spec.destinations (.ldI 1 0x55) ∧
    (15 : Reg) ∉ Spec.destinations (.ldM 14) := ⟨rfl, by decide, by decide⟩

theorem witness_ErrorsArePrecise :
    State.reset.run = .running ∧ step State.reset = .next ((atPc 0x202).setRun (.halted .invalidOpcode)) ∧
    perform .tick (State.reset.setRun (.halted .invalidOpcode)) = .next (State.reset.setRun (.halted .invalidOpcode)) := ⟨rfl, rfl, rfl⟩

theorem witness_ErrorsAreTheTable :
    exec .ret State.reset = .next (State.reset.setRun (.halted .stackUnderflow)) ∧
    Spec.executeError .ret State.reset = some .stackUnderflow ∧ Spec.executeError .ret (deep 1) = none ∧
    Spec.executeError (.call 0) (deep 15) = none ∧ Spec.executeError (.call 0) (deep 16) = some .stackOverflow ∧
    Spec.executeError (.drw 0 0 1) (atI 0xFFF) = none ∧
    Spec.executeError (.drw 0 0 2) (atI 0xFFF) = some .addressOutOfRange ∧ (atPc 0xFFF).run = .running := ⟨rfl, by decide, by decide, by decide, by decide, by decide, by decide, rfl⟩

theorem witness_ErrorEntryIsReported_step :
    State.reset.run = .running ∧ perform .step State.reset = .next ((atPc 0x202).setRun (.halted .invalidOpcode)) :=
  ⟨rfl, rfl⟩

theorem witness_ErrorEntryIsReported_reset :
    ∃ t, perform (.reset Config.fontTable (List.replicate 3585 1)) State.reset = .next t ∧
      t.run = .halted .imageTooLarge := by
  have h : imageFits (List.replicate 3585 1) = false := by
    simp only [imageFits, List.length_replicate]
    decide
  exact ⟨_, congrArg Host.Outcome.next (resetTo_too_large Config.fontTable State.reset h), rfl⟩

theorem witness_HaltedUntilReset :
    (∀ op ∈ idle, Spec.NotReset op) ∧ (State.reset.setRun (.halted .stackOverflow)).run = .halted .stackOverflow ∧
    performAll idle (State.reset.setRun (.halted .stackOverflow)) = .next (State.reset.setRun (.halted .stackOverflow)) := by
  refine ⟨?_, rfl, rfl⟩
  intro op h font image e
  subst e
  simp [idle] at h

/-- A jump to itself at the last place for an instruction. -/
def selfJump : State := (atPc 0xFFE).withFetchWord 16 0x1FFE

theorem witness_SelfJumpIsAFixedPoint :
    selfJump.run = .running ∧ selfJump.pc.toNat = (0xFFE : Addr).toNat ∧ selfJump.pc.toNat ≤ 0xFFE ∧
    [selfJump.readByte selfJump.pc.toNat, selfJump.readByte (selfJump.pc.toNat + 1)] = encode (.jp 0xFFE) := by decide

end Sys2Proof.Tests
end

section
/-! SUPPORT. The invariant of the block under every operation: what keeps it part by part, then every instruction,
`Step()`, the other operations, and any sequence of them (00_scope.md R2 to R4). -/

namespace Sys2Proof.Machine

/-! ### The invariant, part by part -/

/-- The invariant reads memory, `I`, the stack and `pc` alone. -/
theorem State.Inv.of_eq {s t : State} (h : s.Inv) (hmem : t.mem = s.mem) (hi : t.i = s.i)
    (hstack : t.stack = s.stack) (hpc : t.pc = s.pc) : t.Inv := by
  rw [State.Inv, hmem, hi, hstack, hpc]
  exact h

theorem State.Inv.mem_wf {s : State} (h : s.Inv) : s.mem.wf = true := h.1

theorem State.Inv.stack_length_le {s : State} (h : s.Inv) : s.stack.length ≤ Config.stackDepth := by
  obtain ⟨-, -, hlen, -, -⟩ := h
  exact hlen

theorem State.Inv.stack_entry_le {s : State} (h : s.Inv) {a : Word} (ha : a ∈ s.stack) : a.toNat ≤ 0x1000 := by
  obtain ⟨-, -, -, hent, -⟩ := h
  exact hent a ha

theorem State.Inv.setMem {s : State} {m : Memory} (h : s.Inv) (hm : m.wf = true) : (s.setMem m).Inv := by
  obtain ⟨-, hi, hlen, hent, hpc⟩ := h
  exact ⟨hm, hi, hlen, hent, hpc⟩

theorem State.Inv.setI {s : State} {a : Word} (h : s.Inv) (ha : a.toNat ≤ 0xFFF) : (s.setI a).Inv := by
  obtain ⟨hmem, -, hlen, hent, hpc⟩ := h
  exact ⟨hmem, ha, hlen, hent, hpc⟩

theorem State.Inv.setPc {s : State} {a : Word} (h : s.Inv) (ha : a.toNat ≤ 0x10FE) : (s.setPc a).Inv := by
  obtain ⟨hmem, hi, hlen, hent, -⟩ := h
  exact ⟨hmem, hi, hlen, hent, ha⟩

theorem State.Inv.setStack {s : State} {l : List Word} (h : s.Inv) (hl : l.length ≤ Config.stackDepth)
    (hent : ∀ a ∈ l, a.toNat ≤ 0x1000) : (s.setStack l).Inv := by
  obtain ⟨hmem, hi, -, -, hpc⟩ := h
  exact ⟨hmem, hi, hl, hent, hpc⟩

theorem State.Inv.setV {s : State} (x : Reg) (b : Byte) (h : s.Inv) : (s.setV x b).Inv := h

theorem State.Inv.setFb {s : State} (fb : Screen) (h : s.Inv) : (s.setFb fb).Inv := h

theorem State.Inv.loadRegs {s : State} (bs : List Byte) (h : s.Inv) : (s.loadRegs bs).Inv := h

/-- The reset state with any canonical memory meets the invariant. -/
theorem State.reset_setMem_inv {m : Memory} (hm : m.wf = true) : (State.reset.setMem m).Inv :=
  ⟨hm, Nat.zero_le _, Nat.zero_le _, List.forall_mem_nil _, (by decide : State.reset.pc.toNat ≤ 0x10FE)⟩

/-! ### Bounds of the words that instructions put into `I` and `pc` -/

theorem pc_add_two_le (pc : Word) : (pc + 2).toNat ≤ pc.toNat + 2 := by
  rw [BitVec.toNat_add]
  exact Nat.mod_le _ _

theorem extendAddr_le (nnn : Addr) : (extendAddr nnn).toNat ≤ 0xFFF := by
  simp only [extendAddr, BitVec.toNat_setWidth]
  omega

/-- BNNN's target is at most 0xFFF + 0xFF (10_state.md R23). -/
theorem State.indexedTarget_le (s : State) (nnn : Addr) : (s.indexedTarget nnn).toNat ≤ 0x10FE := by
  have hbase := extendAddr_le nnn
  simp only [State.indexedTarget, BitVec.toNat_add, BitVec.toNat_setWidth]
  omega

theorem State.advancedI_le (s : State) (x : Reg) : (s.advancedI x).toNat ≤ 0xFFF := by
  simp only [State.advancedI, BitVec.toNat_ofNat, Config.memSize]
  omega

theorem State.glyphAddress_le (s : State) (x : Reg) : (s.glyphAddress x).toNat ≤ 0xFFF := by
  rw [State.glyphAddress, BitVec.toNat_ofNat]
  refine Nat.le_trans (Nat.mod_le _ _) ?_
  simp only [Config.fontBase, Config.glyphBytes]
  omega

/-! ### Outcomes -/

/-- The next state of the outcome, when it has one, meets the invariant. -/
def EndsInInv (o : Outcome) : Prop := ∀ t, o = .next t → t.Inv

theorem endsInInv_next {t : State} (h : t.Inv) : EndsInInv (.next t) := by
  rintro _ ⟨⟩
  exact h

theorem endsInInv_raise {s : State} (e : Error) (h : s.Inv) : EndsInInv (raise e s) :=
  endsInInv_next (h.of_eq rfl rfl rfl rfl)

/-! ### Execute -/

/-- A skip after a fetch: `pc` is at most 0x1000 after the fetch, so at most 0x1002 after the skip. -/
theorem State.Inv.skipIf {s : State} (c : Bool) (h : s.Inv) (hpc : s.pc.toNat ≤ 0x1000) : (s.skipIf c).Inv := by
  rw [State.skipIf_eq]
  have hskip := pc_add_two_le s.pc
  apply h.setPc
  split <;> omega

theorem State.Inv.writeBytes {s t : State} {a : Nat} {bs : List Byte} (h : s.Inv)
    (ht : s.writeBytes a bs = some t) : t.Inv := by
  rcases s.writeBytes_cases a bs with ⟨hin, heq⟩ | ⟨-, -, heq⟩
  · cases heq.symm.trans ht
    apply h.setMem
    rcases hin with hnil | hin
    · rw [List.eq_nil_of_length_eq_zero hnil]
      exact h.mem_wf
    · exact Memory.writeAll_wf h.mem_wf hin
  · cases heq.symm.trans ht

/-- The return address taken from the stack is at most 0x1000 (10_state.md R15). -/
theorem execRet_endsInInv {s : State} (h : s.Inv) : EndsInInv (execRet s) := by
  rcases List.eq_nil_or_concat' s.stack with hnil | ⟨l, a, hl⟩
  · rw [execRet, State.pop_none hnil]
    exact endsInInv_raise _ h
  · rw [execRet, State.pop_some hl]
    have hlen : l.length + 1 ≤ Config.stackDepth := by simpa [hl] using h.stack_length_le
    have ha : a.toNat ≤ 0x1000 := h.stack_entry_le (by simp [hl])
    have hrest : (s.setStack l).Inv := h.setStack (by omega) fun b hb => h.stack_entry_le (by simp [hl, hb])
    exact endsInInv_next (hrest.setPc (by omega))

/-- The address that a call pushes is `pc` after the fetch, at most 0x1000 (10_state.md R15). -/
theorem execCall_endsInInv {s : State} (nnn : Addr) (h : s.Inv) (hpc : s.pc.toNat ≤ 0x1000) :
    EndsInInv (execCall nnn s) := by
  rcases Nat.lt_or_ge s.stack.length Config.stackDepth with hroom | hfull
  · rw [execCall, State.push_some _ hroom]
    have hpushed : (s.setStack (s.stack ++ [s.pc])).Inv := by
      apply h.setStack
      · simpa using hroom
      · intro a ha
        rcases List.mem_append.1 ha with ha | ha
        · exact h.stack_entry_le ha
        · rwa [List.mem_singleton.1 ha]
    exact endsInInv_next (hpushed.setPc (Nat.le_trans (extendAddr_le nnn) (by decide)))
  · rw [execCall, State.push_none _ hfull]
    exact endsInInv_raise _ h

theorem execDrw_endsInInv {s : State} (x y : Reg) (n : Nibble) (h : s.Inv) : EndsInInv (execDrw x y n s) := by
  unfold execDrw
  split
  · exact endsInInv_next ((h.setFb _).setV _ _)
  · exact endsInInv_raise _ h

theorem execLdM_endsInInv {s : State} (x : Reg) (h : s.Inv) : EndsInInv (execLdM x s) := by
  unfold execLdM
  split
  · exact endsInInv_next (h.loadRegs _)
  · exact endsInInv_raise _ h

theorem execBcd_endsInInv {s : State} (x : Reg) (h : s.Inv) : EndsInInv (execBcd x s) := by
  unfold execBcd
  split
  · next hw => exact endsInInv_next (h.writeBytes hw)
  · exact endsInInv_raise _ h

theorem execStM_endsInInv {s : State} (x : Reg) (h : s.Inv) : EndsInInv (execStM x s) := by
  unfold execStM
  split
  · next hw => exact endsInInv_next (h.writeBytes hw)
  · exact endsInInv_raise _ h

/-- Every instruction keeps the invariant when `pc` has the bound that the fetch before it gives. -/
theorem exec_endsInInv (i : Instr) {s : State} (h : s.Inv) (hpc : s.pc.toNat ≤ 0x1000) : EndsInInv (exec i s) := by
  cases i with
  | ret => exact execRet_endsInInv h
  | call nnn => exact execCall_endsInInv nnn h hpc
  | jp nnn => exact endsInInv_next (h.setPc (Nat.le_trans (extendAddr_le nnn) (by decide)))
  | jpV0 nnn => exact endsInInv_next (h.setPc (s.indexedTarget_le nnn))
  | seI | sneI | seR | sneR | skp | sknp => exact endsInInv_next (h.skipIf _ hpc)
  | ldA nnn => exact endsInInv_next (h.setI (extendAddr_le nnn))
  | addA x => exact endsInInv_next (h.setI (s.advancedI_le x))
  | ldFnt x => exact endsInInv_next (h.setI (s.glyphAddress_le x))
  | drw x y n => exact execDrw_endsInInv x y n h
  | bcd x => exact execBcd_endsInInv x h
  | stM x => exact execStM_endsInInv x h
  | ldM x => exact execLdM_endsInInv x h
  -- the rest writes registers, pixels, timers, `run` or the count of draws alone
  | cls | ldI | addI | ldR | orR | andR | xorR | addR | sub | shr | subn | shl | rnd | ldGdt | ldKey | ldSdt | ldSst =>
    exact endsInInv_next (h.of_eq rfl rfl rfl rfl)

/-! ### Step and the other operations -/

theorem step_running_endsInInv {s : State} (h : s.Inv) (hrun : s.run = .running) : EndsInInv (step s) := by
  rcases Nat.lt_or_ge 0xFFE s.pc.toNat with hout | hin
  · rw [step_fetch_error hrun hout]
    exact endsInInv_next (h.of_eq rfl rfl rfl rfl)
  · have hpc : (s.pc + 2).toNat ≤ 0x1000 := Nat.le_trans (pc_add_two_le s.pc) (Nat.add_le_add_right hin 2)
    have hfetched : (s.setPc (s.pc + 2)).Inv := h.setPc (by omega)
    rw [step_running hrun hin]
    split
    · exact endsInInv_next (hfetched.of_eq rfl rfl rfl rfl)
    · exact exec_endsInInv _ hfetched hpc

theorem step_endsInInv {s : State} (h : s.Inv) : EndsInInv (step s) := by
  cases hrun : s.run with
  | running => exact step_running_endsInInv h hrun
  | awaitingKey r =>
    rw [step_waiting hrun]
    exact endsInInv_next h
  | halted e =>
    rw [step_halted hrun]
    exact endsInInv_next h

/-- `Reset` establishes the invariant, whatever the state before. -/
theorem resetTo_inv (font : Vector Byte 80) (image : List Byte) (s : State) : (resetTo font image s).Inv := by
  have hfits (image : List Byte) (hf : imageFits image = true) : (resetTo font image s).Inv := by
    rw [resetTo_fits font s hf]
    have hwf := resetMemory_wf font image (of_decide_eq_true hf)
    exact (State.reset_setMem_inv hwf).of_eq rfl rfl rfl rfl
  cases hf : imageFits image with
  | true => exact hfits image hf
  | false =>
    rw [resetTo_too_large font s hf]
    exact (hfits [] rfl).of_eq rfl rfl rfl rfl

theorem setKey_inv {s : State} (k : Key) (p : Bool) (h : s.Inv) : (setKey k p s).Inv := by
  unfold setKey
  split
  · split <;> exact h.of_eq rfl rfl rfl rfl
  · exact h.of_eq rfl rfl rfl rfl
  · exact h.of_eq rfl rfl rfl rfl

theorem setKeyIndex_endsInInv {s : State} (k : Nat) (p : Bool) (h : s.Inv) : EndsInInv (setKeyIndex k p s) := by
  unfold setKeyIndex
  split
  · exact endsInInv_next (setKey_inv _ p h)
  · rintro _ ⟨⟩

theorem perform_endsInInv (op : Operation) {s : State} (h : s.Inv) : EndsInInv (perform op s) := by
  cases op with
  | reset font image => exact endsInInv_next (resetTo_inv font image s)
  | step => exact step_endsInInv h
  | tick => exact endsInInv_next (h.of_eq rfl rfl rfl rfl)
  | setKey k p => exact setKeyIndex_endsInInv k p h
  | observe => exact endsInInv_next h

/-! ### Sequences of operations -/

/-- A sequence that ends in a state has performed its first operation and then the rest. -/
theorem performAll_cons_eq_next {op : Operation} {ops : List Operation} {s t : State} :
    performAll (op :: ops) s = .next t ↔ ∃ u, perform op s = .next u ∧ performAll ops u = .next t := by
  rw [performAll]
  cases perform op s <;> simp

theorem performAll_endsInInv (ops : List Operation) {s : State} (h : s.Inv) : EndsInInv (performAll ops s) := by
  induction ops generalizing s with
  | nil => exact endsInInv_next h
  | cons op ops ih =>
    intro t ht
    obtain ⟨u, hu, hrest⟩ := performAll_cons_eq_next.1 ht
    exact ih (perform_endsInInv op h u hu) t hrest

/-- Settles O51: each operation keeps the invariant, hence, by induction, every sequence of them does. -/
theorem operationsKeepInvariant : Obligations.OperationsKeepInvariant :=
  fun ops _ t h ht => performAll_endsInInv ops h t ht

end Sys2Proof.Machine
end

section
/-! SUPPORT. Instructions and the elements that the environment changes: the two timers and the key flags. An
instruction that does not access such an element commutes with any change to it. -/

namespace Sys2Proof.Machine

open Sys2Proof.Spec (afterwards)

/-- The state with DT, ST and the key flags each changed by a function of its own. `Tick()` is such a change, and so is
the store of a key flag. -/
def State.mapDevices (f g : Byte → Byte) (k : Vector Bool 16 → Vector Bool 16) (s : State) : State :=
  ((s.setDt (f s.dt)).setSt (g s.st)).setKeys (k s.keys)

theorem tick_eq_mapDevices : tick = State.mapDevices ticked ticked id := rfl

section
variable (f g : Byte → Byte) (k : Vector Bool 16 → Vector Bool 16) (s : State)

/-! ### What the shared operations of the state make of such a change -/

@[simp] theorem State.mapDevices_stack : (s.mapDevices f g k).stack = s.stack := rfl
@[simp] theorem State.mapDevices_pc : (s.mapDevices f g k).pc = s.pc := rfl
@[simp] theorem State.mapDevices_fb : (s.mapDevices f g k).fb = s.fb := rfl
@[simp] theorem State.mapDevices_getV (x : Reg) : (s.mapDevices f g k).getV x = s.getV x := rfl
@[simp] theorem State.mapDevices_address : (s.mapDevices f g k).address = s.address := rfl
@[simp] theorem State.mapDevices_firstRegs (x : Reg) : (s.mapDevices f g k).firstRegs x = s.firstRegs x := rfl

@[simp] theorem State.mapDevices_readBytes (a n : Nat) :
    (s.mapDevices f g k).readBytes a n = s.readBytes a n := rfl

@[simp] theorem State.mapDevices_writeBytes (a : Nat) (bs : List Byte) :
    (s.mapDevices f g k).writeBytes a bs = (s.writeBytes a bs).map (State.mapDevices f g k) := by
  unfold State.writeBytes
  split <;> rfl

@[simp] theorem State.mapDevices_push (a : Word) :
    (s.mapDevices f g k).push a = (s.push a).map (State.mapDevices f g k) := by
  unfold State.push
  rw [State.mapDevices_stack]
  split <;> rfl

@[simp] theorem State.mapDevices_pop :
    (s.mapDevices f g k).pop = s.pop.map fun p => (p.1, p.2.mapDevices f g k) := by
  rcases List.eq_nil_or_concat' s.stack with h | ⟨l, a, h⟩
  · rw [State.pop_none h, State.pop_none (s := s.mapDevices f g k) h]
    rfl
  · rw [State.pop_some h, State.pop_some (s := s.mapDevices f g k) h]
    rfl

@[simp] theorem State.mapDevices_skipIf (c : Bool) :
    (s.mapDevices f g k).skipIf c = (s.skipIf c).mapDevices f g k := by
  cases c <;> rfl

/-! ### The instructions that can raise an error -/

theorem execRet_mapDevices :
    execRet (s.mapDevices f g k) = afterwards (State.mapDevices f g k) (execRet s) := by
  rw [execRet, execRet, State.mapDevices_pop]
  cases s.pop <;> rfl

theorem execCall_mapDevices (nnn : Addr) :
    execCall nnn (s.mapDevices f g k) = afterwards (State.mapDevices f g k) (execCall nnn s) := by
  rw [execCall, execCall, State.mapDevices_pc, State.mapDevices_push]
  cases s.push s.pc <;> rfl

theorem execDrw_mapDevices (x y : Reg) (n : Nibble) :
    execDrw x y n (s.mapDevices f g k) = afterwards (State.mapDevices f g k) (execDrw x y n s) := by
  simp only [execDrw, State.mapDevices_readBytes, State.mapDevices_address, State.mapDevices_getV, State.mapDevices_fb]
  cases s.readBytes s.address n.toNat <;> rfl

theorem execBcd_mapDevices (x : Reg) :
    execBcd x (s.mapDevices f g k) = afterwards (State.mapDevices f g k) (execBcd x s) := by
  rw [execBcd, execBcd, State.mapDevices_writeBytes, State.mapDevices_address, State.mapDevices_getV]
  cases s.writeBytes s.address (decimalDigits (s.getV x)) <;> rfl

theorem execStM_mapDevices (x : Reg) :
    execStM x (s.mapDevices f g k) = afterwards (State.mapDevices f g k) (execStM x s) := by
  rw [execStM, execStM, State.mapDevices_writeBytes, State.mapDevices_address, State.mapDevices_firstRegs]
  cases s.writeBytes s.address (s.firstRegs x) <;> rfl

theorem execLdM_mapDevices (x : Reg) :
    execLdM x (s.mapDevices f g k) = afterwards (State.mapDevices f g k) (execLdM x s) := by
  rw [execLdM, execLdM, State.mapDevices_readBytes, State.mapDevices_address]
  cases s.readBytes s.address (x.val + 1) <;> rfl

end

/-! ### Every instruction -/

/-- An instruction commutes with a change to the timers and the key flags that leaves alone the elements it accesses:
DT for FX07 and FX15, ST for FX18, the key flags for EX9E and EXA1. -/
theorem exec_mapDevices (i : Instr) (s : State) {f g : Byte → Byte} {k : Vector Bool 16 → Vector Bool 16}
    (hdt : ∀ x, i = .ldGdt x ∨ i = .ldSdt x → f = id) (hst : ∀ x, i = .ldSst x → g = id)
    (hkeys : ∀ x, i = .skp x ∨ i = .sknp x → k = id) :
    exec i (s.mapDevices f g k) = afterwards (State.mapDevices f g k) (exec i s) := by
  cases i with
  | ldGdt x | ldSdt x =>
    obtain rfl : f = id := hdt x (by simp)
    rfl
  | ldSst x =>
    obtain rfl : g = id := hst x rfl
    rfl
  | skp x | sknp x =>
    obtain rfl : k = id := hkeys x (by simp)
    exact congrArg Host.Outcome.next (s.mapDevices_skipIf f g id _)
  | seI | sneI | seR | sneR => exact congrArg Host.Outcome.next (s.mapDevices_skipIf f g k _)
  | ret => exact execRet_mapDevices f g k s
  | call nnn => exact execCall_mapDevices f g k s nnn
  | drw x y n => exact execDrw_mapDevices f g k s x y n
  | bcd x => exact execBcd_mapDevices f g k s x
  | stM x => exact execStM_mapDevices f g k s x
  | ldM x => exact execLdM_mapDevices f g k s x
  -- the rest gives one next state, written from parts that the change leaves alone
  | cls | jp | ldI | addI | ldR | orR | andR | xorR | addR | sub | shr | subn | shl | ldA | jpV0 | rnd | ldKey | addA
  | ldFnt => rfl

/-- Settles O45: a tick changes the two timers alone, and only FX07, FX15 and FX18 access one. -/
theorem tickCommutesWithExecution : Obligations.TickCommutesWithExecution := by
  intro i s hget hset hsound
  rw [tick_eq_mapDevices]
  refine exec_mapDevices i s ?_ ?_ fun _ _ => rfl
  · rintro x (h | h)
    · exact absurd h (hget x)
    · exact absurd h (hset x)
  · exact fun x h => absurd h (hsound x)

end Sys2Proof.Machine
end

section
/-! SUPPORT. The state after reset, element by element (10_state.md R24), and the invariant at reset and under a
step. -/

namespace Sys2Proof.Machine

/-! ### What memory holds after reset -/

theorem reset_readByte (a : Nat) : State.reset.readByte a = Memory.initial a := rfl

/-- Outside the 80 bytes of the font, an unlisted address reads as 0 (20_memory.md R33). -/
theorem Memory.initial_outside_font {a : Nat} (h : a < 0x050 ∨ 0x0A0 ≤ a) : Memory.initial a = 0 := by
  unfold Memory.initial
  split
  · next hbase =>
    have habove : 80 ≤ a - Config.fontBase := by
      simp only [Config.fontBase] at hbase ⊢
      omega
    simp [List.getD_eq_getElem?_getD, habove]
  · rfl

/-- Byte k of glyph g stands at FONT_BASE + 5g + k (10_state.md R25). -/
theorem Memory.initial_font {g k : Nat} (hg : g < 16) (hk : k < 5) :
    Memory.initial (0x050 + 5 * g + k) = (Config.fontGlyphs.getD g []).getD k 0 := by
  have htable : ∀ g < 16, ∀ k < 5,
      Memory.initial (0x050 + 5 * g + k) = (Config.fontGlyphs.getD g []).getD k 0 := by decide
  exact htable g hg k hk

/-! ### The other elements after reset -/

@[simp] theorem reset_getV (r : Reg) : State.reset.getV r = 0 := by
  simp [State.reset, State.getV]

@[simp] theorem reset_keyDown (k : Key) : State.reset.keyDown k = false := by
  simp [State.reset, State.keyDown]

@[simp] theorem reset_pixel (x : Fin 64) (y : Fin 32) : State.reset.fb.pixel x y = false :=
  Screen.pixel_blank x y

/-- Settles O6: memory after reset lists nothing, so each byte reads as the font or as 0; the other elements are at the
values they are given. -/
theorem resetStateValues : Obligations.ResetStateValues := by
  refine ⟨reset_getV, rfl, rfl, rfl, rfl, rfl, reset_keyDown, reset_pixel, rfl, ?_, ?_⟩
  · intro a ha
    rw [reset_readByte, Memory.initial_outside_font ha]
  · intro g k hg hk
    rw [reset_readByte, Memory.initial_font hg hk]

/-! ### The invariant -/

/-- Settles O52: the reset state is itself with its memory, which is canonical, set again. -/
theorem resetMeetsInvariant : Obligations.ResetMeetsInvariant :=
  State.reset_setMem_inv reset_memory_wf

/-- Settles O50: a frozen state is kept as it is; a running step raises an error, which leaves all parts of the invariant
alone, or executes an instruction with `pc` at most 0x1000 after the fetch. -/
theorem stepKeepsInvariant : Obligations.StepKeepsInvariant :=
  fun _ t h ht => step_endsInInv h t ht

end Sys2Proof.Machine
end

section
/-! SUPPORT. Which instructions the key flags matter to (10_state.md R17). -/

namespace Sys2Proof.Machine

theorem State.setKeys_eq_mapDevices (s : State) (keys : Vector Bool 16) :
    s.setKeys keys = s.mapDevices id id fun _ => keys := rfl

/-- Settles O49: replacing the key flags is a change that leaves the timers alone, and only EX9E and EXA1 access a key
flag. -/
theorem keysMatterOnlyToKeySkips : Obligations.KeysMatterOnlyToKeySkips := by
  intro i s keys hskp hsknp
  simp only [State.setKeys_eq_mapDevices]
  refine exec_mapDevices i s (fun _ _ => rfl) (fun _ _ => rfl) ?_
  rintro x (h | h)
  · exact absurd h (hskp x)
  · exact absurd h (hsknp x)

end Sys2Proof.Machine
end

section
/-! SUPPORT. Which registers an instruction writes (10_state.md sections 1 and 4): what the shared operations leave of
a register, then every instruction. -/

namespace Sys2Proof.Machine

open Sys2Proof.Spec (destinations)

/-! ### Registers under the shared operations -/

@[simp] theorem State.skipIf_getV (s : State) (c : Bool) (r : Reg) : (s.skipIf c).getV r = s.getV r := by
  rw [State.skipIf_eq, State.setPc_getV]

theorem State.setFlagThen_getV_other (s : State) {x r : Reg} (f b : Byte) (hx : r ≠ x) (hflag : r ≠ flagReg) :
    (s.setFlagThen f x b).getV r = s.getV r := by
  rw [State.setFlagThen_getV, if_neg hx, if_neg hflag]

/-- Loading bytes leaves the registers above them alone. -/
theorem State.loadRegs_getV_above (s : State) {bs : List Byte} {r : Reg} (h : bs.length ≤ r.val) :
    (s.loadRegs bs).getV r = s.getV r := by
  rw [State.loadRegs_getV, List.getD_eq_default _ _ h]

theorem State.readBytes_length {s : State} {a n : Nat} {bs : List Byte} (h : s.readBytes a n = some bs) :
    bs.length = n := by
  unfold State.readBytes at h
  split at h
  · cases h
    exact Memory.readAll_length s.mem a n
  · cases h

theorem State.writeBytes_getV {s t : State} {a : Nat} {bs : List Byte} (r : Reg) (h : s.writeBytes a bs = some t) :
    t.getV r = s.getV r := by
  rcases s.writeBytes_cases a bs with ⟨-, heq⟩ | ⟨-, -, heq⟩
  · cases heq.symm.trans h
    rfl
  · cases heq.symm.trans h

/-! ### Outcomes -/

/-- The next state of the outcome, when it has one, has V[r] as `s` has it. -/
def KeepsReg (r : Reg) (s : State) (o : Outcome) : Prop := ∀ t, o = .next t → t.getV r = s.getV r

theorem keepsReg_next {r : Reg} {s t : State} (h : t.getV r = s.getV r) : KeepsReg r s (.next t) := by
  rintro _ ⟨⟩
  exact h

theorem keepsReg_raise (r : Reg) (s : State) (e : Error) : KeepsReg r s (raise e s) :=
  keepsReg_next rfl

/-! ### The instructions that can raise an error -/

theorem execRet_keepsReg (r : Reg) (s : State) : KeepsReg r s (execRet s) := by
  rcases List.eq_nil_or_concat' s.stack with hnil | ⟨l, a, hl⟩
  · rw [execRet, State.pop_none hnil]
    exact keepsReg_raise r s _
  · rw [execRet, State.pop_some hl]
    exact keepsReg_next rfl

theorem execCall_keepsReg (r : Reg) (s : State) (nnn : Addr) : KeepsReg r s (execCall nnn s) := by
  rcases Nat.lt_or_ge s.stack.length Config.stackDepth with hroom | hfull
  · rw [execCall, State.push_some _ hroom]
    exact keepsReg_next rfl
  · rw [execCall, State.push_none _ hfull]
    exact keepsReg_raise r s _

theorem execDrw_keepsReg {r : Reg} (s : State) (x y : Reg) (n : Nibble) (h : r ≠ flagReg) :
    KeepsReg r s (execDrw x y n s) := by
  unfold execDrw
  split
  · exact keepsReg_next (State.setV_getV_other _ _ h)
  · exact keepsReg_raise r s _

theorem execBcd_keepsReg (r : Reg) (s : State) (x : Reg) : KeepsReg r s (execBcd x s) := by
  unfold execBcd
  split
  · next hw => exact keepsReg_next (State.writeBytes_getV r hw)
  · exact keepsReg_raise r s _

theorem execStM_keepsReg (r : Reg) (s : State) (x : Reg) : KeepsReg r s (execStM x s) := by
  unfold execStM
  split
  · next hw => exact keepsReg_next (State.writeBytes_getV r hw)
  · exact keepsReg_raise r s _

theorem execLdM_keepsReg {r : Reg} (s : State) {x : Reg} (h : x.val < r.val) : KeepsReg r s (execLdM x s) := by
  unfold execLdM
  split
  · next bs hbs =>
    have hlen : bs.length ≤ r.val := by
      rw [State.readBytes_length hbs]
      exact h
    exact keepsReg_next (s.loadRegs_getV_above hlen)
  · exact keepsReg_raise r s _

/-! ### Every instruction -/

theorem exec_keepsReg (i : Instr) (s : State) {r : Reg} (hr : r ∉ destinations i) : KeepsReg r s (exec i s) := by
  cases i with
  | ldI x | addI x | ldR x | orR x | andR x | xorR x | rnd x | ldGdt x =>
    have hx : r ≠ x := by simpa [destinations] using hr
    exact keepsReg_next (s.setV_getV_other _ hx)
  | addR x | sub x | shr x | subn x | shl x =>
    obtain ⟨hx, hflag⟩ : r ≠ x ∧ r ≠ flagReg := by simpa [destinations] using hr
    exact keepsReg_next (s.setFlagThen_getV_other _ _ hx hflag)
  | drw x y n => exact execDrw_keepsReg s x y n (by simpa [destinations] using hr)
  | ldM x => exact execLdM_keepsReg s (by simpa [destinations] using hr)
  | ret => exact execRet_keepsReg r s
  | call nnn => exact execCall_keepsReg r s nnn
  | bcd x => exact execBcd_keepsReg r s x
  | stM x => exact execStM_keepsReg r s x
  | seI | sneI | seR | sneR | skp | sknp => exact keepsReg_next (s.skipIf_getV _ r)
  -- the rest gives one next state and writes no register
  | cls | jp | ldA | jpV0 | ldKey | ldSdt | ldSst | addA | ldFnt => exact keepsReg_next rfl

/-- Settles O54: every instruction keeps each register outside its destinations. -/
theorem onlyDestinationsAreWritten : Obligations.OnlyDestinationsAreWritten :=
  fun i s t _ ht hr => exec_keepsReg i s hr t ht

end Sys2Proof.Machine
end

section
/-! SUPPORT. A store is seen by the next fetch (20_memory.md R42): the decoder undoes the encoder, a step runs the
instruction whose bytes memory holds at `pc`, and what FX55 leaves in memory. -/

namespace Sys2Proof

/-- Decoding the word of an instruction gives the instruction back (30_encoding.md R54, R56). -/
theorem decodeWord_encodeWord (i : Instr) : decodeWord (encodeWord i) = .ok i := by
  cases i with
  | cls | ret => rfl
  | seR | sneR => simp [encodeWord, decodeWord, decodeLowZero]
  | ldR | orR | andR | xorR | addR | sub | shr | subn | shl => simp [encodeWord, decodeWord, decodeArith]
  | skp | sknp => simp [encodeWord, decodeWord, decodeKeys]
  | ldGdt | ldKey | ldSdt | ldSst | addA | ldFnt | bcd | stM | ldM => simp [encodeWord, decodeWord, decodeMisc]
  -- the rest is told by the top nibble alone
  | jp | call | seI | sneI | ldI | addI | ldA | jpV0 | rnd | drw => simp [encodeWord, decodeWord]

/-- The two bytes of an instruction, joined as the fetch joins them, are its word (30_encoding.md R50). -/
theorem wordOfBytes_of_encode {hi lo : Byte} {i : Instr} (h : [hi, lo] = encode i) :
    wordOfBytes hi lo = encodeWord i := by
  obtain ⟨rfl, rfl⟩ : hi = (encodeWord i).extractLsb' 8 8 ∧ lo = (encodeWord i).extractLsb' 0 8 := by
    simpa [encode, bytesOfWord] using h
  exact wordOfBytes_split (encodeWord i)

namespace Machine

/-- A running step executes the instruction whose bytes memory holds at `pc`, with `pc` advanced. -/
theorem step_of_encoded {s : State} {i : Instr} (hrun : s.run = .running) (hpc : s.pc.toNat ≤ 0xFFE)
    (h : [s.readByte s.pc.toNat, s.readByte (s.pc.toNat + 1)] = encode i) :
    step s = exec i (s.setPc (s.pc + 2)) := by
  rw [step_running hrun hpc, wordOfBytes_of_encode h, decodeWord_encodeWord]

/-- FX55 with every stored byte inside memory writes V[0] to V[X] from `I` up, nothing else (43_memory_ops.md R114). -/
theorem exec_stM_of_fits {s : State} {x : Reg} (h : s.i.toNat + x.val ≤ 0xFFF) :
    exec (.stM x) s = .next (s.setMem (s.mem.writeAll s.address (s.firstRegs x))) := by
  have hfits : s.address + (s.firstRegs x).length ≤ Config.memSize := by
    simp only [State.address, State.firstRegs_length, Config.memSize]
    omega
  rw [exec, execStM, State.writeBytes_some hfits]

/-- After V[0] to V[X] are stored from address `a`, the byte at `a + k` is V[k]. -/
theorem State.readByte_of_stored_firstRegs (s : State) (a : Nat) {x k : Reg} (h : k.val ≤ x.val) :
    (s.setMem (s.mem.writeAll a (s.firstRegs x))).readByte (a + k.val) = s.getV k := by
  have hk : k.val < (s.firstRegs x).length := by
    rw [State.firstRegs_length]
    omega
  exact (Memory.read_writeAll_inside s.mem a _ k.val hk).trans (s.firstRegs_getElem x k.val hk k.isLt)

/-- Settles O14: the two bytes FX55 leaves at `I` = `pc` are V[0] and V[1], the bytes of the instruction that the next
step fetches there. -/
theorem storedInstructionRunsNext : Obligations.StoredInstructionRunsNext := by
  intro s x i hrun hx hi hfits hbytes
  refine ⟨_, exec_stM_of_fits hfits, step_of_encoded hrun ?_ ?_⟩
  · rw [State.setMem_pc, ← hi]
    omega
  · rw [State.setMem_pc, ← hi, ← hbytes]
    exact congrArg₂ (fun hi lo => [hi, lo]) (s.readByte_of_stored_firstRegs s.address (k := 0) (Nat.zero_le _))
      (s.readByte_of_stored_firstRegs s.address (k := 1) hx)

end Machine

end Sys2Proof
end

section
/-! SUPPORT. Which elements of the state, beside the registers, an instruction writes (10_state.md section 1;
40_step_cycle.md section 7): what an outcome keeps, the instructions that can raise an error, then every instruction. -/

namespace Sys2Proof.Machine

open Sys2Proof.Spec (Part UnchangedExcept)

/-- The elements beside the registers that an instruction may write: `run` where it waits for a key or can raise an
error, `draws` where it takes a random byte. Its registers are `Spec.destinations`. -/
@[simp] def writtenElements : Instr → List Part
  | .cls => [.fb]
  | .ret | .call _ => [.stack, .pc, .run]
  | .jp _ | .jpV0 _ | .seI _ _ | .sneI _ _ | .seR _ _ | .sneR _ _ | .skp _ | .sknp _ => [.pc]
  | .ldI _ _ | .addI _ _ | .ldR _ _ | .orR _ _ | .andR _ _ | .xorR _ _ | .addR _ _ | .sub _ _ | .shr _ _ | .subn _ _
  | .shl _ _ | .ldGdt _ => []
  | .ldA _ | .addA _ | .ldFnt _ => [.i]
  | .rnd _ _ => [.draws]
  | .drw _ _ _ => [.fb, .run]
  | .ldKey _ | .ldM _ => [.run]
  | .ldSdt _ => [.dt]
  | .ldSst _ => [.st]
  | .bcd _ | .stM _ => [.mem, .run]

/-- `t` is `s` except in the registers and in the elements listed. -/
def SameElementsExcept (elements : List Part) (s t : State) : Prop :=
  UnchangedExcept ((List.finRange 16).map .v ++ elements) s t

/-! ### Outcomes -/

/-- The next state of the outcome, when it has one, has every element that is not listed as `s` has it. -/
def KeepsElements (elements : List Part) (s : State) (o : Outcome) : Prop :=
  ∀ t, o = .next t → SameElementsExcept elements s t

theorem keepsElements_next {elements : List Part} {s t : State} (h : SameElementsExcept elements s t) :
    KeepsElements elements s (.next t) := by
  rintro _ ⟨⟩
  exact h

theorem keepsElements_raise {elements : List Part} (s : State) (e : Error) (h : .run ∈ elements) :
    KeepsElements elements s (raise e s) :=
  keepsElements_next (by simp [SameElementsExcept, UnchangedExcept, h])

/-! ### The instructions that can raise an error -/

theorem execRet_keepsElements (s : State) : KeepsElements (writtenElements .ret) s (execRet s) := by
  rcases List.eq_nil_or_concat' s.stack with hnil | ⟨l, a, hl⟩
  · rw [execRet, State.pop_none hnil]
    exact keepsElements_raise s _ (by simp)
  · rw [execRet, State.pop_some hl]
    exact keepsElements_next (by simp [SameElementsExcept, UnchangedExcept])

theorem execCall_keepsElements (s : State) (nnn : Addr) :
    KeepsElements (writtenElements (.call nnn)) s (execCall nnn s) := by
  rcases Nat.lt_or_ge s.stack.length Config.stackDepth with hroom | hfull
  · rw [execCall, State.push_some _ hroom]
    exact keepsElements_next (by simp [SameElementsExcept, UnchangedExcept])
  · rw [execCall, State.push_none _ hfull]
    exact keepsElements_raise s _ (by simp)

theorem execDrw_keepsElements (s : State) (x y : Reg) (n : Nibble) :
    KeepsElements (writtenElements (.drw x y n)) s (execDrw x y n s) := by
  unfold execDrw
  split
  · exact keepsElements_next (by simp [SameElementsExcept, UnchangedExcept])
  · exact keepsElements_raise s _ (by simp)

theorem execLdM_keepsElements (s : State) (x : Reg) : KeepsElements (writtenElements (.ldM x)) s (execLdM x s) := by
  unfold execLdM
  split
  · exact keepsElements_next (by simp [SameElementsExcept, UnchangedExcept])
  · exact keepsElements_raise s _ (by simp)

theorem State.writeBytes_sameElements {s t : State} {a : Nat} {bs : List Byte} (h : s.writeBytes a bs = some t) :
    SameElementsExcept [.mem, .run] s t := by
  rcases s.writeBytes_cases a bs with ⟨-, heq⟩ | ⟨-, -, heq⟩
  · cases heq.symm.trans h
    simp [SameElementsExcept, UnchangedExcept]
  · cases heq.symm.trans h

theorem execBcd_keepsElements (s : State) (x : Reg) : KeepsElements (writtenElements (.bcd x)) s (execBcd x s) := by
  unfold execBcd
  split
  · next hw => exact keepsElements_next (State.writeBytes_sameElements hw)
  · exact keepsElements_raise s _ (by simp)

theorem execStM_keepsElements (s : State) (x : Reg) : KeepsElements (writtenElements (.stM x)) s (execStM x s) := by
  unfold execStM
  split
  · next hw => exact keepsElements_next (State.writeBytes_sameElements hw)
  · exact keepsElements_raise s _ (by simp)

/-! ### Every instruction -/

theorem exec_keepsElements (i : Instr) (s : State) : KeepsElements (writtenElements i) s (exec i s) := by
  cases i with
  | ret => exact execRet_keepsElements s
  | call nnn => exact execCall_keepsElements s nnn
  | drw x y n => exact execDrw_keepsElements s x y n
  | bcd x => exact execBcd_keepsElements s x
  | stM x => exact execStM_keepsElements s x
  | ldM x => exact execLdM_keepsElements s x
  | seI | sneI | seR | sneR | skp | sknp =>
    refine keepsElements_next ?_
    simp [SameElementsExcept, UnchangedExcept, State.skipIf_eq]
  -- the rest gives one next state, written by the setters of the elements listed
  | cls | jp | ldI | addI | ldR | orR | andR | xorR | addR | sub | shr | subn | shl | ldA | jpV0 | rnd | ldGdt | ldKey
  | ldSdt | ldSst | addA | ldFnt =>
    refine keepsElements_next ?_
    simp [SameElementsExcept, UnchangedExcept, State.afterDraw]

/-! ### The instructions that write a given element -/

theorem writes_no_keys (i : Instr) : .keys ∉ writtenElements i := by
  cases i <;> simp

theorem writes_mem_iff (i : Instr) : .mem ∈ writtenElements i ↔ ∃ x, i = .bcd x ∨ i = .stM x := by
  cases i <;> simp

theorem writes_fb_iff (i : Instr) : .fb ∈ writtenElements i ↔ i = .cls ∨ ∃ x y n, i = .drw x y n := by
  cases i <;> simp

theorem writes_dt_iff (i : Instr) : .dt ∈ writtenElements i ↔ ∃ x, i = .ldSdt x := by
  cases i <;> simp

theorem writes_st_iff (i : Instr) : .st ∈ writtenElements i ↔ ∃ x, i = .ldSst x := by
  cases i <;> simp

theorem writes_i_iff (i : Instr) :
    .i ∈ writtenElements i ↔ (∃ nnn, i = .ldA nnn) ∨ ∃ x, i = .addA x ∨ i = .ldFnt x := by
  cases i <;> simp

theorem writes_stack_iff (i : Instr) : .stack ∈ writtenElements i ↔ i = .ret ∨ ∃ nnn, i = .call nnn := by
  cases i <;> simp

theorem writes_draws_iff (i : Instr) : .draws ∈ writtenElements i ↔ ∃ x nn, i = .rnd x nn := by
  cases i <;> simp

/-- Settles O53: an element that an instruction changes is one that it writes. -/
theorem onlyTheseInstructionsWrite : Obligations.OnlyTheseInstructionsWrite := by
  intro i s t ht
  have hframe := exec_keepsElements i s t ht
  simp only [SameElementsExcept, UnchangedExcept, List.mem_append, List.mem_map, reduceCtorEq, and_false, exists_false,
    false_or] at hframe
  obtain ⟨hmem, -, hi, -, hstack, hdt, hst, hkeys, hfb, -, hdraws⟩ := hframe
  refine ⟨hkeys (writes_no_keys i), ?_, ?_, ?_, ?_, ?_, ?_, ?_⟩
  · rintro ⟨a, ha⟩
    exact (writes_mem_iff i).1 (not_imp_comm.1 (hmem · a) ha)
  · exact fun h => (writes_fb_iff i).1 (not_imp_comm.1 hfb h)
  · exact fun h => (writes_dt_iff i).1 (not_imp_comm.1 hdt h)
  · exact fun h => (writes_st_iff i).1 (not_imp_comm.1 hst h)
  · exact fun h => (writes_i_iff i).1 (not_imp_comm.1 hi h)
  · exact fun h => (writes_stack_iff i).1 (not_imp_comm.1 hstack h)
  · exact fun h => (writes_draws_iff i).1 (not_imp_comm.1 hdraws h)

end Sys2Proof.Machine
end

section
/-! SUPPORT. What the decoder answers for any word (30_encoding.md R55 to R60): a word rebuilt from its fields,
the words that spell no instruction, and the right answer family by family. -/

namespace Sys2Proof

/-! ### A word rebuilt from its fields -/

theorem topNibble_lt (w : Word) : topNibble w < 16 := (w.extractLsb' 12 4).isLt

theorem lowNibble_lt (w : Word) : lowNibble w < 16 := (w.extractLsb' 0 4).isLt

theorem lowByte_lt (w : Word) : lowByte w < 256 := (w.extractLsb' 0 8).isLt

section
variable {w : Word} {op : Nibble} (hop : topNibble w = op.toNat)
include hop

theorem formatNNN_fields : formatNNN op (fieldNNN w) = w := by
  apply BitVec.eq_of_toNat_eq
  rw [topNibble_eq] at hop
  rw [formatNNN_toNat, fieldNNN_toNat]
  omega

theorem formatXNN_fields : formatXNN op (fieldX w) (fieldNN w) = w := by
  apply BitVec.eq_of_toNat_eq
  rw [topNibble_eq] at hop
  rw [formatXNN_toNat, fieldX_val, fieldNN_toNat]
  omega

theorem formatXYN_fields {n : Nibble} (hn : lowNibble w = n.toNat) : formatXYN op (fieldX w) (fieldY w) n = w := by
  apply BitVec.eq_of_toNat_eq
  rw [topNibble_eq] at hop
  rw [lowNibble_eq] at hn
  rw [formatXYN_toNat, fieldX_val, fieldY_val]
  omega

theorem formatX_fields {low : Byte} (hlow : lowByte w = low.toNat) : formatX op (fieldX w) low = w := by
  apply BitVec.eq_of_toNat_eq
  rw [topNibble_eq] at hop
  rw [lowByte_eq] at hlow
  rw [formatX_toNat, fieldX_val]
  omega

end

/-! ### The answer for a word, family by family (R56 to R60) -/

/-- The word spells no instruction, by the table under 30_encoding.md R60. -/
def SpellsNothing (w : Word) : Prop :=
  (topNibble w = 0x0 ∧ w ≠ 0x00E0 ∧ w ≠ 0x00EE) ∨
  (topNibble w = 0x5 ∧ lowNibble w ≠ 0) ∨
  (topNibble w = 0x8 ∧ lowNibble w ∈ [0x8, 0x9, 0xA, 0xB, 0xC, 0xD, 0xF]) ∨
  (topNibble w = 0x9 ∧ lowNibble w ≠ 0) ∨
  (topNibble w = 0xE ∧ lowByte w ∉ [0x9E, 0xA1]) ∨
  (topNibble w = 0xF ∧ lowByte w ∉ [0x07, 0x0A, 0x15, 0x18, 0x1E, 0x29, 0x33, 0x55, 0x65])

/-- The answer is right for `w`: an instruction whose word is `w`, or `Invalid` for a word that spells none. -/
def AnswersFor (w : Word) : Except DecodeError Instr → Prop
  | .ok i => encodeWord i = w ∧ ¬ SpellsNothing w
  | .error e => e = .invalidOpcode w ∧ SpellsNothing w

theorem decodeFixed_answersFor {w : Word} (hop : topNibble w = 0x0) : AnswersFor w (decodeFixed w) := by
  unfold decodeFixed
  split_ifs with hcls hret
  · subst hcls
    exact ⟨rfl, by unfold SpellsNothing; decide⟩
  · subst hret
    exact ⟨rfl, by unfold SpellsNothing; decide⟩
  · exact ⟨rfl, .inl ⟨hop, hcls, hret⟩⟩

theorem decodeLowZero_answersFor {w : Word} {op : Nibble} {i : Instr} (hop : topNibble w = op.toNat)
    (hfamily : op = 0x5 ∨ op = 0x9) (hi : encodeWord i = formatXYN op (fieldX w) (fieldY w) 0x0) :
    AnswersFor w (decodeLowZero w i) := by
  have htable : SpellsNothing w ↔ lowNibble w ≠ 0 := by
    obtain rfl | rfl := hfamily <;> simp [SpellsNothing, hop]
  unfold decodeLowZero
  split_ifs with hlow
  · exact ⟨hi.trans (formatXYN_fields hop hlow), by simp [htable, hlow]⟩
  · exact ⟨rfl, htable.2 hlow⟩

theorem decodeArith_answersFor {w : Word} (hop : topNibble w = 0x8) : AnswersFor w (decodeArith w) := by
  have htable : SpellsNothing w ↔ lowNibble w ∉ [0x0, 0x1, 0x2, 0x3, 0x4, 0x5, 0x6, 0x7, 0xE] := by
    have hlt := lowNibble_lt w
    have hlisted : SpellsNothing w ↔ lowNibble w ∈ [0x8, 0x9, 0xA, 0xB, 0xC, 0xD, 0xF] := by simp [SpellsNothing, hop]
    rw [hlisted]
    simp only [List.mem_cons, List.not_mem_nil, or_false]
    omega
  unfold decodeArith
  split
  case h_10 => exact ⟨rfl, htable.2 (by simp_all)⟩
  all_goals
    next hlow => exact ⟨formatXYN_fields hop hlow, by simp [htable, hlow]⟩

theorem decodeKeys_answersFor {w : Word} (hop : topNibble w = 0xE) : AnswersFor w (decodeKeys w) := by
  have htable : SpellsNothing w ↔ lowByte w ∉ [0x9E, 0xA1] := by simp [SpellsNothing, hop]
  unfold decodeKeys
  split
  case h_3 => exact ⟨rfl, htable.2 (by simp_all)⟩
  all_goals
    next hlow => exact ⟨formatX_fields hop hlow, by simp [htable, hlow]⟩

theorem decodeMisc_answersFor {w : Word} (hop : topNibble w = 0xF) : AnswersFor w (decodeMisc w) := by
  have htable : SpellsNothing w ↔ lowByte w ∉ [0x07, 0x0A, 0x15, 0x18, 0x1E, 0x29, 0x33, 0x55, 0x65] := by
    simp [SpellsNothing, hop]
  unfold decodeMisc
  split
  case h_10 => exact ⟨rfl, htable.2 (by simp_all)⟩
  all_goals
    next hlow => exact ⟨formatX_fields hop hlow, by simp [htable, hlow]⟩

/-- `Decode(w)` answers rightly: the families R56 dispatches to, then the families in which every word spells an
instruction, by format. -/
theorem decodeWord_answersFor (w : Word) : AnswersFor w (decodeWord w) := by
  have hlt := topNibble_lt w
  unfold decodeWord
  split <;> rename_i hop
  case h_1 => exact decodeFixed_answersFor hop
  case h_6 => exact decodeLowZero_answersFor (op := 0x5) hop (.inl rfl) rfl
  case h_9 => exact decodeArith_answersFor hop
  case h_10 => exact decodeLowZero_answersFor (op := 0x9) hop (.inr rfl) rfl
  case h_15 => exact decodeKeys_answersFor hop
  case h_16 => exact decodeMisc_answersFor hop
  case h_2 | h_3 | h_11 | h_12 => exact ⟨formatNNN_fields hop, by simp [SpellsNothing, hop]⟩
  case h_4 | h_5 | h_7 | h_8 | h_13 => exact ⟨formatXNN_fields hop, by simp [SpellsNothing, hop]⟩
  case h_14 => exact ⟨formatXYN_fields hop rfl, by simp [SpellsNothing, hop]⟩
  -- no top nibble is left for the last arm
  case h_17 => grind

theorem encodeWord_of_decodeWord {w : Word} {i : Instr} (h : decodeWord w = .ok i) : encodeWord i = w :=
  (h ▸ decodeWord_answersFor w : AnswersFor w (.ok i)).1

theorem spellsNothing_of_decodeWord {w : Word} {e : DecodeError} (h : decodeWord w = .error e) : SpellsNothing w :=
  (h ▸ decodeWord_answersFor w : AnswersFor w (.error e)).2

theorem decodeWord_eq_invalid_iff (w : Word) : decodeWord w = .error (.invalidOpcode w) ↔ SpellsNothing w := by
  refine ⟨spellsNothing_of_decodeWord, fun hw => ?_⟩
  have hright := decodeWord_answersFor w
  cases h : decodeWord w with
  | ok i =>
    rw [h] at hright
    exact absurd hw hright.2
  | error e =>
    rw [h] at hright
    rw [hright.1]

theorem decode_bytesOfWord_append {w : Word} {i : Instr} (h : decodeWord w = .ok i) (rest : List Byte) :
    decode (bytesOfWord w ++ rest) = .ok (i, rest) := by
  simp only [bytesOfWord, List.cons_append, List.nil_append, decode, wordOfBytes_split, h]

/-- Settles O2: each field of a format reads back its operand, and the two bytes of a word join to the word. -/
theorem decodeOfEncode : Obligations.DecodeOfEncode := fun i rest =>
  ⟨decodeWord_encodeWord i, decode_bytesOfWord_append (decodeWord_encodeWord i) rest⟩

/-- Settles O3: every arm of the decoder answers an instruction whose word is the decoded one. -/
theorem encodeOfDecode : Obligations.EncodeOfDecode := fun _ _ => encodeWord_of_decodeWord

/-- Settles O5: the table of R60 in nibbles and bytes, read as quotients and remainders of the word. -/
theorem invalidWordsAreTheSpecs : Obligations.InvalidWordsAreTheSpecs := by
  intro w
  rw [decodeWord_eq_invalid_iff]
  simp only [SpellsNothing, topNibble_eq, lowNibble_eq, lowByte_eq, ne_eq, ← BitVec.toNat_inj]
  rfl

/-- Settles O13: the step fetches the word of `i`, which decodes to `i`. -/
theorem stepRunsEncodedBytes : Obligations.StepRunsEncodedBytes := fun _ _ => Machine.step_of_encoded

end Sys2Proof
end

section
/-! SUPPORT. The rows of the opcode map that cover a word (30_encoding.md R55): no two rows cover the same word,
the row of an instruction covers its word, and a word that spells no instruction is covered by none. -/

namespace Sys2Proof

/-! ### No two rows -/

/-- No two rows match the same word (R55): their values differ on the bits that both compare. -/
theorem opcodeTable_disjoint :
    opcodeTable.Pairwise fun r r' => r.value &&& r'.mask ≠ r'.value &&& r.mask := by decide

theorem eq_singleton_of_pairwise {α : Type} {R : α → α → Prop} {l : List α} {a : α} (hl : l.Pairwise R)
    (hnot : ∀ x ∈ l, ∀ y ∈ l, ¬ R x y) (ha : a ∈ l) : l = [a] := by
  match l with
  | [] => cases ha
  | [b] => rw [List.mem_singleton.1 ha]
  | b :: c :: l => exact absurd (List.rel_of_pairwise_cons hl List.mem_cons_self) (hnot b (by simp) c (by simp))

theorem masked_of_covers {r : OpcodeRow} {w : Word} (h : r.covers w = true) : w &&& r.mask = r.value := beq_iff_eq.1 h

theorem rowsCovering_eq_singleton {r : OpcodeRow} {w : Word} (hr : r ∈ opcodeTable) (h : r.covers w = true) :
    rowsCovering w = [r.number] := by
  have hone : opcodeTable.filter (·.covers w) = [r] := by
    refine eq_singleton_of_pairwise (opcodeTable_disjoint.filter _) ?_ (List.mem_filter.2 ⟨hr, h⟩)
    intro a ha b hb hdiffer
    apply hdiffer
    rw [← masked_of_covers (List.mem_filter.1 ha).2, ← masked_of_covers (List.mem_filter.1 hb).2, BitVec.and_assoc,
      BitVec.and_assoc, BitVec.and_comm a.mask]
  rw [rowsCovering, hone, List.map_singleton]

/-! ### The row of an instruction -/

theorem Laws.InTable.every : ∀ i : Instr, Statement i
  | .cls => cls
  | .ret => ret
  | .jp nnn => jp nnn
  | .call nnn => call nnn
  | .seI x nn => seI x nn
  | .sneI x nn => sneI x nn
  | .seR x y => seR x y
  | .ldI x nn => ldI x nn
  | .addI x nn => addI x nn
  | .ldR x y => ldR x y
  | .orR x y => orR x y
  | .andR x y => andR x y
  | .xorR x y => xorR x y
  | .addR x y => addR x y
  | .sub x y => sub x y
  | .shr x y => shr x y
  | .subn x y => subn x y
  | .shl x y => shl x y
  | .sneR x y => sneR x y
  | .ldA nnn => ldA nnn
  | .jpV0 nnn => jpV0 nnn
  | .rnd x nn => rnd x nn
  | .drw x y n => drw x y n
  | .skp x => skp x
  | .sknp x => sknp x
  | .ldGdt x => ldGdt x
  | .ldKey x => ldKey x
  | .ldSdt x => ldSdt x
  | .ldSst x => ldSst x
  | .addA x => addA x
  | .ldFnt x => ldFnt x
  | .bcd x => bcd x
  | .stM x => stM x
  | .ldM x => ldM x

/-- The opcode map has a row with the instruction's number, and it covers the instruction's word. -/
theorem exists_row_covering_encodeWord (i : Instr) :
    ∃ r ∈ opcodeTable, r.number = i.rowNumber ∧ r.covers (encodeWord i) = true := by
  obtain ⟨r, hfilter, hcovers⟩ := List.map_eq_singleton_iff.1 (Laws.InTable.every i)
  have hr : r ∈ opcodeTable.filter fun r => r.number == i.rowNumber := by
    rw [hfilter]
    exact List.mem_singleton_self r
  obtain ⟨hmem, hnumber⟩ := List.mem_filter.1 hr
  exact ⟨r, hmem, beq_iff_eq.1 hnumber, hcovers⟩

/-! ### What a covered word shares with the row's value -/

theorem masked_eq_of_covers {r : OpcodeRow} {w kept : Word} (h : r.covers w = true) (hkept : r.mask &&& kept = kept) :
    w &&& kept = r.value &&& kept := by
  rw [← masked_of_covers h, BitVec.and_assoc, hkept]

theorem topNibble_of_masked {w v : Word} (h : w &&& 0xF000 = v &&& 0xF000) : topNibble w = topNibble v := by
  rw [← BitVec.toNat_inj, masked_top, masked_top] at h
  omega

theorem lowNibble_of_masked {w v : Word} (h : w &&& 0xF00F = v &&& 0xF00F) : lowNibble w = lowNibble v := by
  have hw := lowNibble_lt w
  have hv := lowNibble_lt v
  rw [← BitVec.toNat_inj, masked_top_low, masked_top_low] at h
  omega

theorem lowByte_of_masked {w v : Word} (h : w &&& 0xF0FF = v &&& 0xF0FF) : lowByte w = lowByte v := by
  have hw := lowByte_lt w
  have hv := lowByte_lt v
  rw [← BitVec.toNat_inj, masked_top_byte, masked_top_byte] at h
  omega

/-- Every row compares the top nibble, and in the families that R60 lists also what selects the instruction there. -/
theorem opcodeTable_masks : ∀ r ∈ opcodeTable, r.mask &&& 0xF000 = 0xF000 ∧
    (topNibble r.value = 0x0 → r.mask = BitVec.allOnes 16) ∧
    (topNibble r.value ∈ [0x5, 0x8, 0x9] → r.mask &&& 0xF00F = 0xF00F) ∧
    (topNibble r.value ∈ [0xE, 0xF] → r.mask &&& 0xF0FF = 0xF0FF) := by decide

theorem opcodeTable_values_spell : ∀ r ∈ opcodeTable, ¬ SpellsNothing r.value := by
  unfold SpellsNothing
  decide

/-- A covered word agrees with the row's value in every nibble that R60's table asks about in its family. -/
theorem spellsNothing_value_of_covers {r : OpcodeRow} {w : Word} (hr : r ∈ opcodeTable) (h : r.covers w = true)
    (hw : SpellsNothing w) : SpellsNothing r.value := by
  obtain ⟨hmask, hfixed, harith, hbyte⟩ := opcodeTable_masks r hr
  have htop : topNibble w = topNibble r.value := topNibble_of_masked (masked_eq_of_covers h hmask)
  rw [← htop] at hfixed harith hbyte
  refine hw.imp ?_ (Or.imp ?_ (Or.imp ?_ (Or.imp ?_ (Or.imp ?_ ?_)))) <;> rintro ⟨hop, hrest⟩ <;>
    refine ⟨htop ▸ hop, ?_⟩
  case refine_1 => rwa [← masked_of_covers h, hfixed hop, BitVec.and_allOnes]
  case refine_2 | refine_3 | refine_4 => rwa [← lowNibble_of_masked (masked_eq_of_covers h (harith (by simp [hop])))]
  case refine_5 | refine_6 => rwa [← lowByte_of_masked (masked_eq_of_covers h (hbyte (by simp [hop])))]

theorem rowsCovering_of_spellsNothing {w : Word} (hw : SpellsNothing w) : rowsCovering w = [] := by
  rw [rowsCovering, List.map_eq_nil_iff, List.filter_eq_nil_iff]
  exact fun r hr hcovers => opcodeTable_values_spell r hr (spellsNothing_value_of_covers hr hcovers hw)

/-- Settles O4: the row of the decoded instruction covers the word, no second row does, and the value of no row spells
nothing. -/
theorem decodeAgreesWithOpcodeMap : Obligations.DecodeAgreesWithOpcodeMap := by
  refine ⟨rfl, fun w => ⟨fun i hi => ?_, fun _ he => rowsCovering_of_spellsNothing (spellsNothing_of_decodeWord he)⟩⟩
  obtain ⟨r, hr, hnumber, hcovers⟩ := exists_row_covering_encodeWord i
  rw [encodeWord_of_decodeWord hi] at hcovers
  rw [rowsCovering_eq_singleton hr hcovers, hnumber]

end Sys2Proof
end

section
/-! SUPPORT. The step cycle (40_step_cycle.md): the frame of the two setters it uses, the two cases of
fetch, a running step by what the fetched word decodes to, and what a step reports. -/

namespace Sys2Proof.Spec

open Sys2Proof.Machine

/-! ### Frames -/

theorem UnchangedExcept.refl (parts : List Part) (s : State) : UnchangedExcept parts s s := by
  simp [UnchangedExcept]

/-- A new `pc` stays within a frame that lets `pc` change. -/
theorem UnchangedExcept.setPc {parts : List Part} {s t : State} (h : UnchangedExcept parts s t) (a : Word)
    (hpc : .pc ∈ parts) : UnchangedExcept parts s (t.setPc a) := by
  obtain ⟨hmem, hv, hi, -, hrest⟩ := h
  exact ⟨hmem, hv, hi, fun hnot => absurd hpc hnot, hrest⟩

/-- A new run state stays within a frame that lets `run` change. -/
theorem UnchangedExcept.setRun {parts : List Part} {s t : State} (h : UnchangedExcept parts s t) (r : RunState)
    (hrun : .run ∈ parts) : UnchangedExcept parts s (t.setRun r) := by
  obtain ⟨hmem, hv, hi, hpc, hstack, hdt, hst, hkeys, hfb, -, hdraws⟩ := h
  exact ⟨hmem, hv, hi, hpc, hstack, hdt, hst, hkeys, hfb, fun hnot => absurd hrun hnot, hdraws⟩

end Sys2Proof.Spec

namespace Sys2Proof.Machine

open Sys2Proof.Spec (UnchangedExcept)

/-! ### Fetch -/

/-- Where two bytes fit at `pc`, its advance by 2 does not wrap. -/
theorem pc_add_two_toNat {pc : Word} (h : pc.toNat ≤ 0xFFE) : (pc + 2).toNat = pc.toNat + 2 := by
  bv_omega

/-- Settles O10: fetch joins the two bytes at `pc` when both lie in memory, and otherwise has no state to give back, so
that the step raises in the state it began in. -/
theorem fetchReadsBigEndianOrFails : Obligations.FetchReadsBigEndianOrFails := by
  refine fun s => ⟨fun hin => ?_, fun hout => ⟨fetch_error hout, fun hrun => ?_⟩⟩
  · exact ⟨_, _, fetch_ok hin, wordOfBytes_toNat _ _, pc_add_two_toNat hin,
      (UnchangedExcept.refl _ s).setPc _ (by simp)⟩
  · exact ⟨_, step_fetch_error hrun hout, rfl, (UnchangedExcept.refl _ s).setRun _ (by simp)⟩

/-! ### Decode -/

/-- Settles O9: of the two cases of a running step inside memory, the fetched word selects execution. -/
theorem stepRunsDecodedInstruction : Obligations.StepRunsDecodedInstruction := by
  intro s i hrun hin hdecode
  rw [step_running hrun hin, hdecode]

/-- A running step whose fetched word spells no instruction raises `InvalidOpcode` with `pc` advanced (R72). -/
theorem step_of_invalid {s : State} {e : DecodeError} (hrun : s.run = .running) (hin : s.pc.toNat ≤ 0xFFE)
    (hdecode : decodeWord (wordOfBytes (s.readByte s.pc.toNat) (s.readByte (s.pc.toNat + 1))) = .error e) :
    step s = .next ((s.setPc (s.pc + 2)).setRun (.halted .invalidOpcode)) := by
  rw [step_running hrun hin, hdecode]

/-- Settles O11: the error is raised in the state that the fetch gave, which differs in `pc` alone. -/
theorem invalidWordRaises : Obligations.InvalidWordRaises := fun s _ hrun hin hdecode =>
  ⟨_, step_of_invalid hrun hin hdecode, rfl, pc_add_two_toNat hin,
    ((UnchangedExcept.refl _ s).setPc _ (by simp)).setRun _ (by simp)⟩

/-! ### Reports -/

/-- A running step that does not end halted has executed its instruction, a wait for a key included (R77). -/
theorem reportOf_executed {after : RunState} (h : ∀ e, after ≠ .halted e) : reportOf .running after = .executed := by
  cases after with
  | running | awaitingKey r => rfl
  | halted e => exact absurd rfl (h e)

/-- Settles O12: a frozen state is its own next state, and the report of a step is told by the run states at its two
ends. -/
theorem stepReportsAndFrozenStates : Obligations.StepReportsAndFrozenStates := by
  refine ⟨fun s r hwait => ?_, fun s e hhalt => ?_, fun s t hrun hstep => ?_⟩
  · have hstep : step s = .next s := step_waiting hwait
    exact ⟨hstep, by rw [stepReport_next hstep, hwait, reportOf]⟩
  · have hstep : step s = .next s := step_halted hhalt
    exact ⟨hstep, by rw [stepReport_next hstep, hhalt, reportOf]⟩
  · rw [stepReport_next hstep, hrun]
    exact ⟨fun e hraised => by rw [hraised, reportOf_raised], fun hnone => by rw [reportOf_executed hnone]⟩

end Sys2Proof.Machine
end

section
/-! SUPPORT. Control flow (41_control_flow.md): what shows that an instruction raises or skips, the call stack's two
instructions by what the stack holds, then the jumps, calls, returns and skips themselves. -/

namespace Sys2Proof.Spec

open Sys2Proof.Machine

/-- A new stack stays within a frame that lets `stack` change. -/
theorem UnchangedExcept.setStack {parts : List Part} {s t : State} (h : UnchangedExcept parts s t) (l : List Word)
    (hstack : .stack ∈ parts) : UnchangedExcept parts s (t.setStack l) := by
  obtain ⟨hmem, hv, hi, hpc, -, hrest⟩ := h
  exact ⟨hmem, hv, hi, hpc, fun hnot => absurd hstack hnot, hrest⟩

/-- An instruction whose meaning is to raise changes `run` alone. -/
theorem raises_of_exec_eq_raise {i : Instr} {s : State} {e : Error} (h : exec i s = raise e s) : Raises i s e :=
  ⟨_, h, rfl, (UnchangedExcept.refl _ s).setRun _ (by simp)⟩

/-- An instruction whose meaning is to skip on a test skips exactly when what the test decides holds. -/
theorem skipsIf_of_exec_eq_skipIf {i : Instr} {s : State} {b : Bool} {c : Prop} (h : exec i s = .next (s.skipIf b))
    (hb : b = true ↔ c) : SkipsIf c i s := by
  rw [State.skipIf_eq] at h
  refine ⟨_, h, fun hc => ?_, fun hc => ?_, (UnchangedExcept.refl _ s).setPc _ (by simp)⟩
  · rw [State.setPc_pc, if_pos (hb.2 hc)]
  · rw [State.setPc_pc, if_neg (mt hb.1 hc)]

end Sys2Proof.Spec

namespace Sys2Proof.Machine

open Sys2Proof.Spec (UnchangedExcept raises_of_exec_eq_raise skipsIf_of_exec_eq_skipIf)

/-! ### Jump -/

/-- Zero extension keeps the address as a number (30_encoding.md R53). -/
theorem extendAddr_toNat (nnn : Addr) : (extendAddr nnn).toNat = nnn.toNat :=
  BitVec.toNat_setWidth_of_le (by decide)

/-- Settles O16: the jump is one write of `pc`. -/
theorem jumpSetsPc : Obligations.JumpSetsPc := fun nnn s =>
  ⟨_, rfl, extendAddr_toNat nnn, (UnchangedExcept.refl _ s).setPc _ (by simp)⟩

/-! ### Call and return -/

theorem exec_call_of_room {s : State} (nnn : Addr) (h : s.stack.length < 16) :
    exec (.call nnn) s = .next ((s.setStack (s.stack ++ [s.pc])).setPc (extendAddr nnn)) := by
  rw [exec, execCall, State.push_some _ h]

theorem exec_call_of_full {s : State} (nnn : Addr) (h : 16 ≤ s.stack.length) :
    exec (.call nnn) s = raise .stackOverflow s := by
  rw [exec, execCall, State.push_none _ h]

theorem exec_ret_of_concat {s : State} {l : List Word} {a : Word} (h : s.stack = l ++ [a]) :
    exec .ret s = .next ((s.setStack l).setPc a) := by
  rw [exec, execRet, State.pop_some h]

theorem exec_ret_of_nil {s : State} (h : s.stack = []) : exec .ret s = raise .stackUnderflow s := by
  rw [exec, execRet, State.pop_none h]

/-- Settles O18: by whether the stack has room for one more entry. -/
theorem callPushesReturnAddress : Obligations.CallPushesReturnAddress := by
  refine fun nnn s => ⟨fun hroom => ?_, fun hfull => raises_of_exec_eq_raise (exec_call_of_full nnn hfull)⟩
  exact ⟨_, exec_call_of_room nnn hroom, rfl, extendAddr_toNat nnn,
    ((UnchangedExcept.refl _ s).setStack _ (by simp)).setPc _ (by simp)⟩

/-- Settles O19: by whether the stack has a last entry. -/
theorem returnPopsStack : Obligations.ReturnPopsStack := by
  refine fun s => ⟨fun l a hstack => ?_, fun hnil => raises_of_exec_eq_raise (exec_ret_of_nil hnil)⟩
  exact ⟨_, exec_ret_of_concat hstack, rfl, rfl,
    ((UnchangedExcept.refl _ s).setStack _ (by simp)).setPc _ (by simp)⟩

/-- Settles O20: the entry that the return pops is the `pc` that the call pushed, and the rest of the stack is the stack
before the call. -/
theorem callThenReturnRestores : Obligations.CallThenReturnRestores := fun nnn s _ hroom =>
  ⟨_, exec_call_of_room nnn hroom, exec_ret_of_concat (l := s.stack) (a := s.pc) rfl⟩

/-! ### Skips -/

/-- Settles O21: the two tests are Boolean equality and inequality of V[X] and NN. -/
theorem skipsOnImmediate : Obligations.SkipsOnImmediate := fun _ _ _ =>
  ⟨skipsIf_of_exec_eq_skipIf rfl beq_iff_eq, skipsIf_of_exec_eq_skipIf rfl bne_iff_ne⟩

/-- Settles O22: the two tests are Boolean equality and inequality of V[X] and V[Y]. -/
theorem skipsOnRegisters : Obligations.SkipsOnRegisters := fun _ _ _ =>
  ⟨skipsIf_of_exec_eq_skipIf rfl beq_iff_eq, skipsIf_of_exec_eq_skipIf rfl bne_iff_ne⟩

end Sys2Proof.Machine
end

section
/-! SUPPORT. Arithmetic and logic (42_alu.md): the frame of the writes they make, what shows that an instruction writes
a register, alone or with the flag, each result and flag as a number, then the instructions themselves. -/

namespace Sys2Proof.Spec

open Sys2Proof.Machine

/-- A new value of a register stays within a frame that lets that register change. -/
theorem UnchangedExcept.setV {parts : List Part} {s t : State} (h : UnchangedExcept parts s t) {x : Reg} (b : Byte)
    (hx : .v x ∈ parts) : UnchangedExcept parts s (t.setV x b) := by
  obtain ⟨hmem, hv, hrest⟩ := h
  refine ⟨hmem, fun r hr => ?_, hrest⟩
  have hne : r ≠ x := fun heq => hr (heq ▸ hx)
  rw [State.setV_getV_other t b hne, hv r hr]

/-- A new count of draws stays within a frame that lets `draws` change. -/
theorem UnchangedExcept.setDraws {parts : List Part} {s t : State} (h : UnchangedExcept parts s t) (n : Nat)
    (hdraws : .draws ∈ parts) : UnchangedExcept parts s (t.setDraws n) := by
  obtain ⟨hmem, hv, hi, hpc, hstack, hdt, hst, hkeys, hfb, hrun, -⟩ := h
  exact ⟨hmem, hv, hi, hpc, hstack, hdt, hst, hkeys, hfb, hrun, fun hnot => absurd hdraws hnot⟩

/-- A write of V[x] alone changes that register alone. -/
theorem setV_unchangedExcept (s : State) (x : Reg) (b : Byte) : UnchangedExcept [.v x] s (s.setV x b) :=
  (UnchangedExcept.refl _ s).setV b (by simp)

/-- An instruction whose meaning is one register write writes that register. -/
theorem writesReg_of_exec_eq_setV {i : Instr} {s : State} {x : Reg} {b : Byte} {n : Nat}
    (h : exec i s = .next (s.setV x b)) (hb : b.toNat = n) : WritesReg i s x n :=
  ⟨_, h, by rw [State.setV_getV_same, hb], setV_unchangedExcept s x b⟩

/-- An instruction whose meaning is to write the flag and then V[x] writes both, and x = 0xF keeps the result (R97). -/
theorem writesRegAndFlag_of_exec_eq_setFlagThen {i : Instr} {s : State} {x : Reg} {b flag : Byte} {n f : Nat}
    (h : exec i s = .next (s.setFlagThen flag x b)) (hb : b.toNat = n) (hf : flag.toNat = f) :
    WritesRegAndFlag i s x n f := by
  refine ⟨_, h, ?_, fun hx => ?_, ((UnchangedExcept.refl _ s).setV flag (by simp)).setV b (by simp)⟩
  · rw [State.setFlagThen_getV, if_pos rfl, hb]
  · rw [State.setFlagThen_getV, if_neg hx.symm, if_pos rfl, hf]

end Sys2Proof.Spec

namespace Sys2Proof.Machine

open Sys2Proof.Spec (UnchangedExcept setV_unchangedExcept writesReg_of_exec_eq_setV
  writesRegAndFlag_of_exec_eq_setFlagThen)

/-! ### Results and flags as numbers (R96) -/

theorem sumByte_toNat (a b : Byte) : (sumByte a b).toNat = (a.toNat + b.toNat) % 256 := by
  simp [sumByte]

theorem differenceByte_toNat (a b : Byte) : (differenceByte a b).toNat = (a.toNat + 256 - b.toNat) % 256 := by
  simp [differenceByte]

theorem doubleByte_toNat (b : Byte) : (doubleByte b).toNat = b.toNat * 2 % 256 := by
  simp [doubleByte]

theorem halfByte_toNat (b : Byte) : (halfByte b).toNat = b.toNat / 2 :=
  Nat.mod_eq_of_lt (by have := b.isLt; omega)

theorem flagByte_toNat (c : Bool) : (flagByte c).toNat = c.toNat := by
  cases c <;> rfl

/-- The flag of a comparison is 1 when it holds and 0 when it does not. -/
theorem flagByte_decide_toNat (p : Prop) [Decidable p] : (flagByte (decide p)).toNat = if p then 1 else 0 := by
  rw [flagByte_toNat, Bool.toNat, Bool.cond_decide]

/-- The flag of bit k of a byte is digit k of the number. -/
theorem flagByte_getLsbD_toNat (b : Byte) (k : Nat) : (flagByte (b.getLsbD k)).toNat = b.toNat / 2 ^ k % 2 := by
  rw [flagByte_toNat, ← BitVec.testBit_toNat, Nat.toNat_testBit]

theorem lowBitFlag_toNat (b : Byte) : (lowBitFlag b).toNat = b.toNat % 2 := by
  rw [lowBitFlag, flagByte_getLsbD_toNat, Nat.pow_zero, Nat.div_one]

theorem highBitFlag_toNat (b : Byte) : (highBitFlag b).toNat = b.toNat / 128 := by
  rw [highBitFlag, flagByte_getLsbD_toNat]
  exact Nat.mod_eq_of_lt (by have := b.isLt; omega)

/-! ### Loads, copies and bitwise logic -/

/-- Settles O24: each of the three is one write of V[X]. -/
theorem loadAddCopy : Obligations.LoadAddCopy := fun _ _ _ _ =>
  ⟨writesReg_of_exec_eq_setV rfl rfl, writesReg_of_exec_eq_setV rfl (sumByte_toNat _ _),
    writesReg_of_exec_eq_setV rfl rfl⟩

/-- Settles O25: each of the three is one write of V[X], and each bit of what is written is the operation on the two
operand bits. -/
theorem bitwiseLogic : Obligations.BitwiseLogic := by
  refine fun x _ s => ⟨⟨_, rfl, setV_unchangedExcept s x _, fun k _ => ?_⟩,
    ⟨_, rfl, setV_unchangedExcept s x _, fun k _ => ?_⟩, ⟨_, rfl, setV_unchangedExcept s x _, fun k _ => ?_⟩⟩
  · rw [State.setV_getV_same, BitVec.getLsbD_or]
  · rw [State.setV_getV_same, BitVec.getLsbD_and]
  · rw [State.setV_getV_same, BitVec.getLsbD_xor]

/-! ### Arithmetic with a flag -/

/-- Settles O26: the flag compares the same exact sum that the result narrows. -/
theorem addRegisterWithCarry : Obligations.AddRegisterWithCarry := fun _ _ _ =>
  writesRegAndFlag_of_exec_eq_setFlagThen rfl (sumByte_toNat _ _) (flagByte_decide_toNat _)

/-- Settles O27: the two subtractions differ in which operand is the minuend. -/
theorem subtractWithBorrow : Obligations.SubtractWithBorrow := fun _ _ _ =>
  ⟨writesRegAndFlag_of_exec_eq_setFlagThen rfl (differenceByte_toNat _ _) (flagByte_decide_toNat _),
    writesRegAndFlag_of_exec_eq_setFlagThen rfl (differenceByte_toNat _ _) (flagByte_decide_toNat _)⟩

/-- Settles O28: the bit shifted out is the last binary digit of V[Y] to the right and its first to the left. -/
theorem shiftSourceIntoX : Obligations.ShiftSourceIntoX := fun _ _ _ =>
  ⟨writesRegAndFlag_of_exec_eq_setFlagThen rfl (halfByte_toNat _) (lowBitFlag_toNat _),
    writesRegAndFlag_of_exec_eq_setFlagThen rfl (doubleByte_toNat _) (highBitFlag_toNat _)⟩

/-! ### The random byte -/

/-- Settles O29: the mask clears every bit outside NN whatever byte is drawn. -/
theorem randomByteIsMasked : Obligations.RandomByteIsMasked := by
  intro x nn s
  have hread : ((s.setV x (s.drawnByte &&& nn)).afterDraw).getV x = s.drawnByte &&& nn := s.setV_getV_same x _
  refine ⟨_, rfl, hread, fun k _ hk => ?_, rfl, ((UnchangedExcept.refl _ s).setV _ (by simp)).setDraws _ (by simp)⟩
  rw [hread, BitVec.getLsbD_and, hk, Bool.and_false]

end Sys2Proof.Machine
end

section
/-! SUPPORT. The address register and memory (43_memory_ops.md): the frame of the writes they make, the two results in
`I` and the decimal digits as numbers, each access to memory by whether its last byte lies in memory, then the
instructions themselves. -/

namespace Sys2Proof.Spec

open Sys2Proof.Machine

/-- New memory stays within a frame that lets memory change. -/
theorem UnchangedExcept.setMem {parts : List Part} {s t : State} (h : UnchangedExcept parts s t) (m : Memory)
    (hmem : .mem ∈ parts) : UnchangedExcept parts s (t.setMem m) := by
  obtain ⟨-, hrest⟩ := h
  exact ⟨fun hnot => absurd hmem hnot, hrest⟩

/-- A new `I` stays within a frame that lets `I` change. -/
theorem UnchangedExcept.setI {parts : List Part} {s t : State} (h : UnchangedExcept parts s t) (a : Word)
    (hi : .i ∈ parts) : UnchangedExcept parts s (t.setI a) := by
  obtain ⟨hmem, hv, -, hrest⟩ := h
  exact ⟨hmem, hv, fun hnot => absurd hi hnot, hrest⟩

/-- Loading bytes stays within a frame that lets the register of each byte change. -/
theorem UnchangedExcept.loadRegs {parts : List Part} {s t : State} (h : UnchangedExcept parts s t) {bs : List Byte}
    (hloaded : ∀ k : Reg, k.val < bs.length → .v k ∈ parts) : UnchangedExcept parts s (t.loadRegs bs) := by
  obtain ⟨hmem, hv, hrest⟩ := h
  refine ⟨hmem, fun r hr => ?_, hrest⟩
  have habove : bs.length ≤ r.val := Nat.not_lt.1 (mt (hloaded r) hr)
  rw [t.loadRegs_getV_above habove, hv r hr]

end Sys2Proof.Spec

namespace Sys2Proof.Machine

open Sys2Proof.Spec (UnchangedExcept raises_of_exec_eq_raise)

/-! ### The address register -/

/-- The sum modulo 0x1000 fits in the 16 bits of `I` (43_memory_ops.md R111). -/
theorem State.advancedI_toNat (s : State) (x : Reg) :
    (s.advancedI x).toNat = (s.i.toNat + (s.getV x).toNat) % 0x1000 :=
  Nat.mod_eq_of_lt (Nat.lt_trans (Nat.mod_lt _ (by decide)) (by decide))

/-- The address of a glyph fits in the 16 bits of `I` (43_memory_ops.md R112). -/
theorem State.glyphAddress_toNat (s : State) (x : Reg) :
    (s.glyphAddress x).toNat = 0x050 + 5 * ((s.getV x).toNat % 16) :=
  Nat.mod_eq_of_lt (by simp only [Config.fontBase, Config.glyphBytes]; omega)

/-- Settles O30: each of the two is one write of `I`. -/
theorem addressRegisterLoadAndAdd : Obligations.AddressRegisterLoadAndAdd := fun nnn x s =>
  ⟨⟨_, rfl, extendAddr_toNat nnn, (UnchangedExcept.refl _ s).setI _ (by simp)⟩,
    ⟨_, rfl, s.advancedI_toNat x, (UnchangedExcept.refl _ s).setI _ (by simp)⟩⟩

/-- Settles O31: the address is that of byte 0 of a glyph below 16 in the font that reset leaves. -/
theorem glyphAddressOfLowNibble : Obligations.GlyphAddressOfLowNibble := by
  refine fun x s => ⟨_, rfl, s.glyphAddress_toNat x, (UnchangedExcept.refl _ s).setI _ (by simp), fun k hk => ?_⟩
  rw [State.setI_i, s.glyphAddress_toNat, reset_readByte, Memory.initial_font (Nat.mod_lt _ (by decide)) hk]

/-! ### Decimal digits -/

/-- FX33 with the last digit inside memory writes the three digits from `I` up, nothing else (43_memory_ops.md R113). -/
theorem exec_bcd_of_fits {s : State} (x : Reg) (h : s.i.toNat + 2 ≤ 0xFFF) :
    exec (.bcd x) s = .next (s.setMem (s.mem.writeAll s.address (decimalDigits (s.getV x)))) := by
  have hfits : s.address + (decimalDigits (s.getV x)).length ≤ Config.memSize := Nat.succ_le_succ h
  rw [exec, execBcd, State.writeBytes_some hfits]

theorem exec_bcd_of_beyond {s : State} (x : Reg) (h : 0xFFF < s.i.toNat + 2) :
    exec (.bcd x) s = raise .addressOutOfRange s := by
  have hbeyond : Config.memSize < s.address + (decimalDigits (s.getV x)).length := Nat.succ_lt_succ h
  rw [exec, execBcd, State.writeBytes_none (by simp) hbeyond]

/-- The digits of a byte are bytes. -/
theorem decimalDigits_map_toNat (b : Byte) :
    (decimalDigits b).map BitVec.toNat = [b.toNat / 100, b.toNat / 10 % 10, b.toNat % 10] := by
  have hb := b.isLt
  simp only [decimalDigits, List.map_cons, List.map_nil, BitVec.toNat_ofNat, List.cons.injEq, and_true]
  omega

/-- After the digits of a byte are stored from address `a`, the byte at `a + k` is digit k. -/
theorem State.readByte_of_stored_decimalDigits (s : State) (a : Nat) (b : Byte) {k : Nat} (hk : k < 3) :
    ((s.setMem (s.mem.writeAll a (decimalDigits b))).readByte (a + k)).toNat =
      [b.toNat / 100, b.toNat / 10 % 10, b.toNat % 10][k] := by
  simp only [← decimalDigits_map_toNat, List.getElem_map]
  exact congrArg BitVec.toNat (Memory.read_writeAll_inside s.mem a (decimalDigits b) k hk)

/-- Settles O32: by whether the last digit has a place in memory. -/
theorem decimalDigitsStored : Obligations.DecimalDigitsStored := by
  refine fun x s => ⟨fun hfits => ?_, fun hbeyond => raises_of_exec_eq_raise (exec_bcd_of_beyond x hbeyond)⟩
  have hdigit (k : Nat) (hk : k < 3) := s.readByte_of_stored_decimalDigits s.address (s.getV x) hk
  have hother := Memory.read_writeAll_outside s.mem s.address (decimalDigits (s.getV x))
  exact ⟨_, exec_bcd_of_fits x hfits, hdigit 0 (by decide), hdigit 1 (by decide), hdigit 2 (by decide), hother,
    (UnchangedExcept.refl _ s).setMem _ (by simp)⟩

/-! ### Storing and loading registers -/

theorem exec_stM_of_beyond {s : State} {x : Reg} (h : 0xFFF < s.i.toNat + x.val) :
    exec (.stM x) s = raise .addressOutOfRange s := by
  have hlength := s.firstRegs_length x
  have hbeyond : Config.memSize < s.address + (s.firstRegs x).length := hlength ▸ Nat.succ_lt_succ h
  rw [exec, execStM, State.writeBytes_none (hlength ▸ x.val.succ_pos) hbeyond]

/-- Settles O33: by whether the last register has a place in memory. -/
theorem registersStored : Obligations.RegistersStored := by
  refine fun x s => ⟨fun hfits => ?_, fun hbeyond => raises_of_exec_eq_raise (exec_stM_of_beyond hbeyond)⟩
  refine ⟨_, exec_stM_of_fits hfits, fun _ => s.readByte_of_stored_firstRegs s.address, fun a ha => ?_,
    (UnchangedExcept.refl _ s).setMem _ (by simp)⟩
  apply Memory.read_writeAll_outside
  rwa [State.firstRegs_length]

/-- FX65 with every loaded byte inside memory loads V[0] to V[X] from `I` up, nothing else (43_memory_ops.md R115). -/
theorem exec_ldM_of_fits {s : State} {x : Reg} (h : s.i.toNat + x.val ≤ 0xFFF) :
    exec (.ldM x) s = .next (s.loadRegs (s.mem.readAll s.address (x.val + 1))) := by
  have hfits : s.address + (x.val + 1) ≤ Config.memSize := Nat.succ_le_succ h
  rw [exec, execLdM, State.readBytes_some (.inr hfits)]
  rfl

theorem exec_ldM_of_beyond {s : State} {x : Reg} (h : 0xFFF < s.i.toNat + x.val) :
    exec (.ldM x) s = raise .addressOutOfRange s := by
  have hbeyond : Config.memSize < s.address + (x.val + 1) := Nat.succ_lt_succ h
  rw [exec, execLdM, State.readBytes_none x.val.succ_pos hbeyond]

/-- After V[0] to V[X] are loaded from address `a`, V[k] is the byte at `a + k`. -/
theorem State.loadRegs_readAll_getV (s : State) (m : Memory) (a : Nat) {x k : Reg} (h : k.val ≤ x.val) :
    (s.loadRegs (m.readAll a (x.val + 1))).getV k = m.read (a + k.val) := by
  have hk : k.val < (m.readAll a (x.val + 1)).length := by
    rw [Memory.readAll_length]
    omega
  rw [State.loadRegs_getV, List.getD_eq_getElem _ _ hk, Memory.readAll_getElem]

/-- Settles O34: by whether the last byte lies in memory; the X + 1 bytes loaded reach the registers up to V[X]. -/
theorem registersLoaded : Obligations.RegistersLoaded := by
  refine fun x s => ⟨fun hfits => ?_, fun hbeyond => raises_of_exec_eq_raise (exec_ldM_of_beyond hbeyond)⟩
  refine ⟨_, exec_ldM_of_fits hfits, fun _ => s.loadRegs_readAll_getV s.mem s.address,
    (UnchangedExcept.refl _ s).loadRegs fun k hk => ?_⟩
  rw [Memory.readAll_length] at hk
  exact List.mem_filterMap.2 ⟨k, List.mem_finRange k, if_pos (Nat.le_of_lt_succ hk)⟩

/-- Settles O35: V[k] is loaded from the byte it was stored in, which new registers and a new `pc` leave alone. -/
theorem storeThenLoadGivesBack : Obligations.StoreThenLoadGivesBack := by
  refine fun x s _ _ hfits => ⟨_, _, exec_stM_of_fits hfits, exec_ldM_of_fits hfits, fun k hk => ?_, rfl⟩
  exact (State.loadRegs_readAll_getV _ _ _ hk).trans (s.readByte_of_stored_firstRegs s.address hk)

end Sys2Proof.Machine
end

section
/-! SUPPORT. The framebuffer (44_draw.md): the frame of a new framebuffer, what a drawn sprite does to each pixel and
when it collides, the two meanings of DXYN by whether the sprite lies in memory, then the instructions themselves. -/

namespace Sys2Proof.Spec

open Sys2Proof.Machine

/-- A new framebuffer stays within a frame that lets the pixels change. -/
theorem UnchangedExcept.setFb {parts : List Part} {s t : State} (h : UnchangedExcept parts s t) (g : Screen)
    (hfb : .fb ∈ parts) : UnchangedExcept parts s (t.setFb g) := by
  obtain ⟨hmem, hv, hi, hpc, hstack, hdt, hst, hkeys, -, hrest⟩ := h
  exact ⟨hmem, hv, hi, hpc, hstack, hdt, hst, hkeys, fun hnot => absurd hfb hnot, hrest⟩

/-- The pixels under a sprite depend on memory, `I` and the two registers of its position alone. -/
theorem underSprite_iff_of_unchanged {parts : List Part} {s t : State} {x y : Reg} (h : UnchangedExcept parts s t)
    (hmem : .mem ∉ parts) (hi : .i ∉ parts) (hx : .v x ∉ parts) (hy : .v y ∉ parts) (n : Nibble) (px : Fin 64)
    (py : Fin 32) : UnderSprite t x y n px py ↔ UnderSprite s x y n px py := by
  obtain ⟨hmem', hv', hi', -⟩ := h
  simp only [UnderSprite, hmem' hmem, hi' hi, hv' x hx, hv' y hy]

@[simp] theorem underSprite_setPc (s : State) (p : Word) (x y : Reg) (n : Nibble) (px : Fin 64) (py : Fin 32) :
    UnderSprite (s.setPc p) x y n px py ↔ UnderSprite s x y n px py := Iff.rfl

end Sys2Proof.Spec

namespace Sys2Proof.Machine

open Sys2Proof.Spec (UnchangedExcept UnderSprite underSprite_iff_of_unchanged underSprite_setPc raises_of_exec_eq_raise)

/-! ### Clear -/

/-- Settles O37: the clear is one write of the framebuffer, all of whose pixels are off. -/
theorem clearScreen : Obligations.ClearScreen := fun s =>
  ⟨_, rfl, Screen.pixel_blank, (UnchangedExcept.refl _ s).setFb _ (by simp)⟩

/-! ### The drawn sprite -/

/-- The framebuffer after the N-row sprite at `I` is drawn at (V[x], V[y]), and whether a pixel collided
(44_draw.md R121). -/
def State.drawn (s : State) (x y : Reg) (n : Nibble) : Screen × Bool :=
  drawSprite (s.getV x) (s.getV y) (s.mem.readAll s.address n.toNat) s.fb

/-- DXYN with every row inside memory draws the sprite and then writes the flag, nothing else (44_draw.md R121). -/
theorem exec_drw_of_fits {s : State} (x y : Reg) {n : Nibble} (h : n.toNat = 0 ∨ s.i.toNat + n.toNat - 1 ≤ 0xFFF) :
    exec (.drw x y n) s = .next ((s.setFb (s.drawn x y n).1).setV flagReg (flagByte (s.drawn x y n).2)) := by
  have hfits : n.toNat = 0 ∨ s.address + n.toNat ≤ Config.memSize := h.imp_right Nat.le_succ_of_pred_le
  rw [exec, execDrw, State.readBytes_some hfits]
  rfl

theorem exec_drw_of_beyond {s : State} (x y : Reg) {n : Nibble} (hn : 1 ≤ n.toNat)
    (h : 0xFFF < s.i.toNat + n.toNat - 1) : exec (.drw x y n) s = raise .addressOutOfRange s := by
  have hbeyond : Config.memSize < s.address + n.toNat := Nat.succ_lt_of_lt_pred h
  rw [exec, execDrw, State.readBytes_none hn hbeyond]

theorem spriteColumn_val (vx : Byte) (c : Nat) : (spriteColumn vx c).val = (vx.toNat + c) % 64 := rfl

theorem spriteRow_val (vy : Byte) (r : Nat) : (spriteRow vy r).val = (vy.toNat + r) % 32 := rfl

/-- The pixels under the sprite are the places of its spots with bit 1. -/
theorem mem_spots_iff_underSprite (s : State) (x y : Reg) (n : Nibble) (px : Fin 64) (py : Fin 32) :
    ((px, py), true) ∈ spots (s.getV x) (s.getV y) (s.mem.readAll s.address n.toNat) ↔
      UnderSprite s x y n px py := by
  simp only [mem_spots, Memory.readAll_length, Memory.readAll_getElem, Prod.mk.injEq, Fin.ext_iff, spriteColumn_val,
    spriteRow_val, exists_prop, and_assoc, eq_comm (a := true)]
  rfl

/-- The spots of the sprite at `I` lie at distinct places: a nibble counts fewer than sixteen rows. -/
theorem spots_readAll_nodup (vx vy : Byte) (m : Memory) (a : Nat) (n : Nibble) :
    ((spots vx vy (m.readAll a n.toNat)).map Prod.fst).Nodup :=
  spots_nodup vx vy _ (by rw [Memory.readAll_length]; exact n.isLt.le)

theorem State.drawn_pixel_of_under {s : State} {x y : Reg} {n : Nibble} {px : Fin 64} {py : Fin 32}
    (h : UnderSprite s x y n px py) : (s.drawn x y n).1.pixel px py = !s.fb.pixel px py := by
  rw [State.drawn, drawSprite_eq, drawSpots_pixel _ _ _ _ (spots_readAll_nodup _ _ _ _ n),
    if_pos ((mem_spots_iff_underSprite s x y n px py).2 h)]

theorem State.drawn_pixel_of_not_under {s : State} {x y : Reg} {n : Nibble} {px : Fin 64} {py : Fin 32}
    (h : ¬ UnderSprite s x y n px py) : (s.drawn x y n).1.pixel px py = s.fb.pixel px py := by
  rw [State.drawn, drawSprite_eq, drawSpots_pixel _ _ _ _ (spots_readAll_nodup _ _ _ _ n),
    if_neg (mt (mem_spots_iff_underSprite s x y n px py).1 h)]

/-- A draw collides exactly when a pixel under the sprite was on. -/
theorem State.drawn_collision_iff (s : State) (x y : Reg) (n : Nibble) :
    (s.drawn x y n).2 = true ↔ ∃ px py, UnderSprite s x y n px py ∧ s.fb.pixel px py = true := by
  rw [State.drawn, drawSprite_eq, drawSpots_collision _ _ (spots_readAll_nodup _ _ _ _ n)]
  simp only [mem_spots_iff_underSprite, Bool.false_eq_true, false_or]

theorem flagByte_of_true {c : Bool} (h : c = true) : flagByte c = 1 := if_pos h

theorem flagByte_of_not_true {c : Bool} (h : ¬ c = true) : flagByte c = 0 := if_neg h

/-! ### Draw -/

/-- Settles O38: every pixel and the collision of the drawn sprite, read back through the two writes of DXYN. -/
theorem drawXorsSprite : Obligations.DrawXorsSprite := by
  intro x y n s hfits
  refine ⟨_, exec_drw_of_fits x y hfits, fun _ _ => State.drawn_pixel_of_under,
    fun _ _ => State.drawn_pixel_of_not_under, fun hhit => ?_, fun hmiss => ?_,
    ((UnchangedExcept.refl _ s).setFb _ (by simp)).setV _ (by simp)⟩
  · rw [State.setV_getV_same, flagByte_of_true ((s.drawn_collision_iff x y n).2 hhit)]
  · have hnone : ¬ ∃ px py, UnderSprite s x y n px py ∧ s.fb.pixel px py = true := by
      rintro ⟨px, py, hunder, hon⟩
      exact Bool.false_ne_true ((hmiss px py hunder).symm.trans hon)
    rw [State.setV_getV_same, flagByte_of_not_true (mt (s.drawn_collision_iff x y n).1 hnone)]

/-- Settles O39: the rows are read before anything is written. -/
theorem drawBeyondMemoryRaises : Obligations.DrawBeyondMemoryRaises := fun x y _ _ hn hbeyond =>
  raises_of_exec_eq_raise (exec_drw_of_beyond x y hn hbeyond)

/-- Settles O40: the first draw moves neither the sprite nor its place, so the second inverts the same pixels, and the
pixels it finds on are those that the first turned on. -/
theorem drawTwiceRestores : Obligations.DrawTwiceRestores := by
  intro x y n s p hx hy hfits
  obtain ⟨t, ht, ton, toff, -, -, hframe⟩ := drawXorsSprite x y n s hfits
  have hunder := underSprite_iff_of_unchanged hframe (by simp) (by simp) (by simpa using hx) (by simpa using hy) n
  have hi : t.i = s.i := by
    obtain ⟨-, -, hi, -⟩ := hframe
    exact hi (by simp)
  obtain ⟨u, hu, uon, uoff, hhit, hmiss, -⟩ := drawXorsSprite x y n (t.setPc p) (by rwa [State.setPc_i, hi])
  simp only [underSprite_setPc, hunder, State.setPc_fb] at uon uoff hhit hmiss
  refine ⟨t, u, ht, hu, Screen.ext_pixel fun px py => ?_, fun hflag => ?_, ?_⟩
  · by_cases h : UnderSprite s x y n px py
    · rw [uon px py h, ton px py h, Bool.not_not]
    · rw [uoff px py h, toff px py h]
  · by_contra hnone
    have hzero : u.getV flagReg = 0 := by
      refine hmiss fun px py h => Bool.eq_false_iff.2 fun hlit => hnone ⟨px, py, ?_, hlit⟩
      rwa [ton px py h, Bool.not_eq_true'] at hlit
    exact absurd (hflag.symm.trans hzero) (by decide)
  · rintro ⟨px, py, hoff, hlit⟩
    refine hhit ⟨px, py, ?_, hlit⟩
    by_contra h
    rw [toff px py h, hoff] at hlit
    cases hlit

end Sys2Proof.Machine
end

section
/-! SUPPORT. The timers (45_timer.md): the frame of a new timer value, a new ST as a change to the devices, the audio
cue, then the instructions themselves. -/

namespace Sys2Proof.Spec

open Sys2Proof.Machine

/-- A new delay timer stays within a frame that lets DT change. -/
theorem UnchangedExcept.setDt {parts : List Part} {s t : State} (h : UnchangedExcept parts s t) (b : Byte)
    (hdt : .dt ∈ parts) : UnchangedExcept parts s (t.setDt b) := by
  obtain ⟨hmem, hv, hi, hpc, hstack, -, hrest⟩ := h
  exact ⟨hmem, hv, hi, hpc, hstack, fun hnot => absurd hdt hnot, hrest⟩

/-- A new sound timer stays within a frame that lets ST change. -/
theorem UnchangedExcept.setSt {parts : List Part} {s t : State} (h : UnchangedExcept parts s t) (b : Byte)
    (hst : .st ∈ parts) : UnchangedExcept parts s (t.setSt b) := by
  obtain ⟨hmem, hv, hi, hpc, hstack, hdt, -, hrest⟩ := h
  exact ⟨hmem, hv, hi, hpc, hstack, hdt, fun hnot => absurd hst hnot, hrest⟩

end Sys2Proof.Spec

namespace Sys2Proof.Machine

open Sys2Proof.Spec (UnchangedExcept afterwards writesReg_of_exec_eq_setV)

theorem State.setSt_eq_mapDevices (s : State) (b : Byte) : s.setSt b = s.mapDevices id (fun _ => b) id := rfl

/-- An instruction other than FX18 carries any sound timer through and does the same beside it (45_timer.md R132). -/
theorem exec_setSt {i : Instr} (hsound : ∀ x, i ≠ .ldSst x) (s : State) (b : Byte) :
    exec i (s.setSt b) = afterwards (fun t => t.setSt b) (exec i s) := by
  simp only [State.setSt_eq_mapDevices]
  exact exec_mapDevices i s (fun _ _ => rfl) (fun x hx => absurd hx (hsound x)) fun _ _ => rfl

/-- FX18 overwrites the sound timer without reading it. -/
theorem exec_ldSst_setSt (x : Reg) (s : State) (b : Byte) : exec (.ldSst x) (s.setSt b) = exec (.ldSst x) s := rfl

/-- The audio cue is on while the observed ST is above 0 (60_exceptions.md R157). -/
theorem soundOn_observe_iff (s : State) : soundOn (observe s) = true ↔ 0 < s.st.toNat :=
  decide_eq_true_iff

/-- Settles O41: FX07 is one write of V[X], FX15 one write of DT. -/
theorem delayTimerReadAndWrite : Obligations.DelayTimerReadAndWrite := fun _ s =>
  ⟨writesReg_of_exec_eq_setV rfl rfl, _, rfl, rfl, (UnchangedExcept.refl _ s).setDt _ (by simp)⟩

/-- Settles O42: FX18 is one write of ST that overwrites what was there; replacing ST is a change to the devices that no
other instruction notices. -/
theorem soundTimerSetAndNeverRead : Obligations.SoundTimerSetAndNeverRead := by
  refine ⟨fun _ s => ?_, fun _ s b hsound => exec_setSt hsound s b, exec_ldSst_setSt,
    fun s => ⟨rfl, soundOn_observe_iff s⟩⟩
  exact ⟨_, rfl, rfl, (UnchangedExcept.refl _ s).setSt _ (by simp)⟩

end Sys2Proof.Machine
end

section
/-! SUPPORT. The keyboard (46_keyboard.md): the key that V[X] names, then the two skips that test it. -/

namespace Sys2Proof.Machine

open Sys2Proof.Spec (skipsIf_of_exec_eq_skipIf)

/-- The low nibble of V[X] names the key (92_eei_decisions.md D12). -/
theorem State.namedKey_val (s : State) (x : Reg) : (s.namedKey x).val = (s.getV x).toNat % 16 := rfl

/-- Settles O23: the low nibble of V[X] fixes the key, so the two instructions test the given key, one for pressed and
one for not pressed. -/
theorem skipsOnKey : Obligations.SkipsOnKey := by
  intro x k s hk
  obtain rfl : s.namedKey x = k := Fin.ext ((s.namedKey_val x).trans hk.symm)
  exact ⟨skipsIf_of_exec_eq_skipIf rfl Iff.rfl, skipsIf_of_exec_eq_skipIf rfl (Bool.not_eq_true' _).to_iff⟩

end Sys2Proof.Machine
end

section
/-! SUPPORT. What a memory lists is what it reads: in canonical form the cells are told by the reads, so that memories
that read alike list the same cells in the same order. -/

namespace Sys2Proof.Machine

/-- Where a memory reads other than an unlisted address does, it lists the cell. -/
theorem Memory.mem_of_read_ne_initial {m : Memory} {a : Nat} (h : m.read a ≠ Memory.initial a) :
    (a, m.read a) ∈ m := by
  induction m with
  | nil => exact absurd rfl h
  | cons c m ih =>
    obtain ⟨ca, cb⟩ := c
    unfold Memory.read at h ⊢
    split at h <;> rename_i ha
    · simp [ha]
    · simp [ha, ih h]

/-- In rising order no address is listed twice, so every listed cell is the one that is read. -/
theorem Memory.read_of_mem {m : Memory} {c : Host.Cell} (hm : m.Pairwise fun c d => c.1 < d.1) (hc : c ∈ m) :
    m.read c.1 = c.2 := by
  induction m with
  | nil => cases hc
  | cons d m ih =>
    obtain ⟨hd, hrest⟩ := List.pairwise_cons.1 hm
    obtain rfl | hc := List.mem_cons.1 hc
    · exact if_pos rfl
    · exact (if_neg (hd c hc).ne').trans (ih hrest hc)

/-- A cell that one canonical memory lists is not what an unlisted address reads as, so a memory that reads alike lists
it too. -/
theorem Memory.subset_of_read_eq {m m' : Memory} (hm : m.wf = true) (hread : ∀ a, m.read a = m'.read a) :
    m ⊆ m' := by
  intro c hc
  obtain ⟨hsorted, hcells⟩ := (Memory.wf_iff m).1 hm
  have hc' : m'.read c.1 = c.2 := (hread c.1).symm.trans (Memory.read_of_mem hsorted hc)
  have hlisted : (c.1, m'.read c.1) ∈ m' := Memory.mem_of_read_ne_initial (hc' ▸ (hcells c hc).2)
  rwa [hc'] at hlisted

/-- Settles O36: the two memories list the same cells, and both in rising order. -/
theorem memoryFormIsCanonical : Obligations.MemoryFormIsCanonical := by
  intro m m' hm hm' hread
  have hirrefl : Std.Irrefl fun c d : Host.Cell => c.1 < d.1 := ⟨fun c => Nat.lt_irrefl c.1⟩
  have hasymm : Std.Asymm fun c d : Host.Cell => c.1 < d.1 := ⟨fun _ _ => Nat.lt_asymm⟩
  obtain ⟨hsorted, -⟩ := (Memory.wf_iff m).1 hm
  obtain ⟨hsorted', -⟩ := (Memory.wf_iff m').1 hm'
  exact List.Subset.antisymm_of_pairwise hsorted hsorted' (Memory.subset_of_read_eq hm hread)
    (Memory.subset_of_read_eq hm' fun a => (hread a).symm)

end Sys2Proof.Machine
end

section
/-! SUPPORT. Reset (70_reset_and_hazards.md): what its memory holds address by address, then its two cases, an image that
fits and one that does not. -/

namespace Sys2Proof.Machine

open Sys2Proof.Spec (UnchangedExcept)

/-! ### The memory of Reset -/

theorem resetMemory_read_image (font : Vector Byte 80) {image : List Byte} {k : Nat} (h : k < image.length) :
    (resetMemory font image).read (0x200 + k) = image[k] :=
  Memory.read_writeAll_inside _ _ image k h

/-- Below the program the image writes nothing. -/
theorem resetMemory_read_below (font : Vector Byte 80) (image : List Byte) {a : Nat} (h : a < 0x200) :
    (resetMemory font image).read a = (Memory.writeAll [] 0x050 font.toList).read a :=
  Memory.read_writeAll_outside _ _ image a (.inl h)

theorem resetMemory_read_font (font : Vector Byte 80) (image : List Byte) {k : Nat} (h : k < 80) :
    (resetMemory font image).read (0x050 + k) = font[k] := by
  rw [resetMemory_read_below font image (by omega), Memory.read_writeAll_inside _ _ _ _ (by simpa using h),
    Vector.getElem_toList]

theorem resetMemory_read_other (font : Vector Byte 80) (image : List Byte) {a : Nat}
    (h : a < 0x050 ∨ (0x0A0 ≤ a ∧ a < 0x200) ∨ 0x200 + image.length ≤ a) : (resetMemory font image).read a = 0 := by
  have himage : a < Config.progBase ∨ Config.progBase + image.length ≤ a := by
    simp only [Config.progBase]
    omega
  have hfont : a < Config.fontBase ∨ Config.fontBase + font.toList.length ≤ a := by
    simp only [Config.fontBase, Vector.length_toList]
    omega
  rw [resetMemory, Memory.read_writeAll_outside _ _ _ _ himage, Memory.read_writeAll_outside _ _ _ _ hfont]
  exact Memory.initial_outside_font (by omega)

/-! ### The two cases -/

theorem imageFits_iff (image : List Byte) : imageFits image = true ↔ image.length ≤ 3584 := decide_eq_true_iff

theorem imageFits_eq_false_iff (image : List Byte) : imageFits image = false ↔ 3584 < image.length := by
  rw [← Bool.not_eq_true, imageFits_iff, Nat.not_le]

/-- A `Reset` with an image that fits reports nothing. -/
theorem resetReport_fits {image : List Byte} (h : imageFits image = true) : resetReport image = none := if_pos h

/-- Settles O7: the image lies above the font, so each stands where it was written, and both are written over a memory
that lists nothing. -/
theorem resetPlacesFontAndImage : Obligations.ResetPlacesFontAndImage := by
  intro font image s hlength
  have hfits : imageFits image = true := (imageFits_iff image).2 hlength
  refine ⟨_, congrArg Host.Outcome.next (resetTo_fits font s hfits), fun k hk => resetMemory_read_image font hk,
    fun k hk => resetMemory_read_font font image hk, fun a ha => resetMemory_read_other font image ha, ?_,
    resetReport_fits hfits⟩
  exact ((UnchangedExcept.refl _ _).setMem _ (by simp)).setDraws _ (by simp)

/-- Settles O8: the state is that of the empty image with `run` halted. -/
theorem resetWithLargeImageHalts : Obligations.ResetWithLargeImageHalts := by
  intro font image s hlength
  have hlarge : imageFits image = false := (imageFits_eq_false_iff image).2 hlength
  exact ⟨_, _, congrArg Host.Outcome.next (resetTo_too_large font s hlarge), rfl, rfl,
    (UnchangedExcept.refl _ _).setRun _ (by simp), resetReport_eq_some.2 ⟨hlarge, rfl⟩, rfl⟩

end Sys2Proof.Machine
end

section
/-! SUPPORT. Ticks and the timers (60_exceptions.md R150 to R152), and the observation (R156). -/

namespace Sys2Proof.Machine

open Sys2Proof.Spec (Part UnchangedExcept)

theorem ticked_toNat (b : Byte) : (ticked b).toNat = b.toNat - 1 :=
  Nat.mod_eq_of_lt (by have := b.isLt; omega)

/-- A tick stays within a frame that lets the two timers change. -/
theorem tick_unchangedExcept {parts : List Part} {s t : State} (h : UnchangedExcept parts s t) (hdt : .dt ∈ parts)
    (hst : .st ∈ parts) : UnchangedExcept parts s (tick t) :=
  (h.setDt _ hdt).setSt _ hst

/-- Settles O43: a tick is one write of each timer and does not read `run`. -/
theorem tickDecrementsBothTimers : Obligations.TickDecrementsBothTimers := fun s =>
  ⟨tick s, rfl, ticked_toNat s.dt, ticked_toNat s.st,
    tick_unchangedExcept (UnchangedExcept.refl _ s) (by simp) (by simp), rfl⟩

/-- k ticks in a row take k from each timer, floored at 0. -/
theorem performAll_ticks (k : Nat) (s : State) : ∃ t, performAll (List.replicate k .tick) s = .next t ∧
    t.dt.toNat = s.dt.toNat - k ∧ t.st.toNat = s.st.toNat - k := by
  induction k generalizing s with
  | zero => exact ⟨s, rfl, rfl, rfl⟩
  | succ k ih =>
    obtain ⟨t, ht, hdt, hst⟩ := ih (tick s)
    have hdt' : (tick s).dt.toNat = s.dt.toNat - 1 := ticked_toNat s.dt
    have hst' : (tick s).st.toNat = s.st.toNat - 1 := ticked_toNat s.st
    exact ⟨t, ht, by omega, by omega⟩

/-- Settles O44: the ticks by induction, the instructions by which of them write a timer. -/
theorem timersCountDown : Obligations.TimersCountDown := by
  refine ⟨performAll_ticks, fun i s t ht => ?_⟩
  obtain ⟨-, -, -, hdt, hst, -⟩ := onlyTheseInstructionsWrite i s t ht
  exact ⟨fun hnot => not_imp_comm.1 hdt (not_exists.2 hnot), fun hnot => not_imp_comm.1 hst (not_exists.2 hnot)⟩

/-- Settles O59: the observation is a record of the four elements. -/
theorem observeIsASnapshot : Obligations.ObserveIsASnapshot := fun _ => ⟨rfl, rfl, rfl, rfl, rfl⟩

end Sys2Proof.Machine
end

section
/-! SUPPORT. SetKey (60_exceptions.md R153 to R155): the press that completes a wait, every other SetKey, and an index
outside the interface; then FX0A, which begins the wait. -/

namespace Sys2Proof.Spec

open Sys2Proof.Machine

/-- New key flags stay within a frame that lets the keys change. -/
theorem UnchangedExcept.setKeys {parts : List Part} {s t : State} (h : UnchangedExcept parts s t)
    (keys : Vector Bool 16) (hkeys : .keys ∈ parts) : UnchangedExcept parts s (t.setKeys keys) := by
  obtain ⟨hmem, hv, hi, hpc, hstack, hdt, hst, -, hrest⟩ := h
  exact ⟨hmem, hv, hi, hpc, hstack, hdt, hst, fun hnot => absurd hkeys hnot, hrest⟩

end Sys2Proof.Spec

namespace Sys2Proof.Machine

open Sys2Proof.Spec (UnchangedExcept)

/-- The state with the flag of one key stored. -/
def State.storeKey (s : State) (k : Key) (p : Bool) : State := s.setKeys (s.keys.set k.val p k.isLt)

theorem State.storeKey_keyDown (s : State) (k : Key) (p : Bool) (k' : Key) :
    (s.storeKey k p).keyDown k' = if k' = k then p else s.keyDown k' := by
  simp only [State.storeKey, State.keyDown, State.setKeys_keys, Vector.getElem_set, Fin.val_inj, eq_comm]

/-- The press of a key that was up puts the key's index into the waiting register and ends the wait (R153). -/
theorem setKey_of_completing {k : Key} {r : Reg} {s : State} (hwait : s.run = .awaitingKey r)
    (hup : s.keyDown k = false) :
    setKey k true s = ((s.storeKey k true).setV r (BitVec.ofNat 8 k.val)).setRun .running := by
  simp [setKey, hwait, hup, State.storeKey]

/-- Any other SetKey stores the flag, nothing else. -/
theorem setKey_of_not_completing {k : Key} {p : Bool} {s : State}
    (h : (∀ r, s.run ≠ .awaitingKey r) ∨ p = false ∨ s.keyDown k = true) : setKey k p s = s.storeKey k p := by
  unfold setKey
  split
  · next r hwait =>
    have hnopress : ¬ (p && !s.keyDown k) = true := by
      rcases h with hrun | rfl | hdown
      · exact absurd hwait (hrun r)
      · simp
      · simp [hdown]
    rw [if_neg hnopress]
    rfl
  · rfl
  · rfl

/-- A SetKey completes a wait or it does not. -/
theorem setKey_cases (k : Key) (p : Bool) (s : State) :
    (∃ r, s.run = .awaitingKey r ∧ p = true ∧ s.keyDown k = false) ∨
      ((∀ r, s.run ≠ .awaitingKey r) ∨ p = false ∨ s.keyDown k = true) := by
  refine or_iff_not_imp_right.2 fun h => ?_
  simpa only [not_or, not_forall, not_not, Bool.not_eq_false, Bool.not_eq_true, exists_and_right] using h

theorem setKey_keyDown (k : Key) (p : Bool) (s : State) (k' : Key) :
    (setKey k p s).keyDown k' = if k' = k then p else s.keyDown k' := by
  rw [← s.storeKey_keyDown]
  rcases setKey_cases k p s with ⟨r, hwait, rfl, hup⟩ | hnot
  · rw [setKey_of_completing hwait hup]
    rfl
  · rw [setKey_of_not_completing hnot]

theorem perform_setKey (k : Key) (p : Bool) (s : State) : perform (.setKey k.val p) s = .next (setKey k p s) :=
  dif_pos k.isLt

theorem perform_setKey_of_outside {k : Nat} (h : 16 ≤ k) (p : Bool) (s : State) :
    perform (.setKey k p) s = .refused (.keyIndexOutOfRange k) :=
  dif_neg (Nat.not_lt.2 h)

/-- A SetKey that gets a step is that of one of the sixteen keys. -/
theorem exists_key_of_perform_setKey {k : Nat} {p : Bool} {s t : State} (h : perform (.setKey k p) s = .next t) :
    ∃ key, t = setKey key p s := by
  rcases Nat.lt_or_ge k 16 with hk | hk
  · rw [perform_setKey ⟨k, hk⟩] at h
    cases h
    exact ⟨⟨k, hk⟩, rfl⟩
  · rw [perform_setKey_of_outside hk] at h
    cases h

/-- Settles O47: by whether the SetKey completes a wait. -/
theorem setKeyStoresAndCompletes : Obligations.SetKeyStoresAndCompletes := by
  refine ⟨fun k p s => ⟨setKey k p s, perform_setKey k p s, ?_, fun k' hk' => ?_, ?_, fun hnot => ?_⟩,
    fun k p s hk => perform_setKey_of_outside hk p s⟩
  · rw [setKey_keyDown, if_pos rfl]
  · rw [setKey_keyDown, if_neg hk']
  · rintro r hwait rfl hup
    rw [setKey_of_completing hwait hup, State.setRun_getV, State.setV_getV_same]
    refine ⟨Nat.mod_eq_of_lt (Nat.lt_trans k.isLt (by decide)), rfl, ?_⟩
    exact (((UnchangedExcept.refl _ s).setKeys _ (by simp)).setV _ (by simp)).setRun _ (by simp)
  · rw [setKey_of_not_completing hnot]
    exact (UnchangedExcept.refl _ s).setKeys _ (by simp)

/-- Settles O46: FX0A is one write of `run`. -/
theorem keyWaitIsEntered : Obligations.KeyWaitIsEntered := fun _ s =>
  ⟨_, rfl, rfl, (UnchangedExcept.refl _ s).setRun _ (by simp)⟩

end Sys2Proof.Machine
end

section
/-! SUPPORT. A core that waits or has halted (60_exceptions.md R144, R161): which operations leave its run state alone,
and that any sequence of them changes the timers and the key flags at most. -/

namespace Sys2Proof.Machine

open Sys2Proof.Spec (Part UnchangedExcept KeepsWaiting NotReset)

/-- The elements that the environment changes from outside: the two timers and the key flags. -/
def devices : List Part := [.dt, .st, .keys]

/-- The operation leaves the run state `r` alone, whatever the rest of the state: no `Reset`, no step of a running core,
no press of a key while the core waits for one. -/
def KeepsRun (r : RunState) : Operation → Prop
  | .reset _ _ => False
  | .step => r ≠ .running
  | .tick => True
  | .setKey _ p => (∀ x, r ≠ .awaitingKey x) ∨ p = false
  | .observe => True

theorem step_frozen {s : State} (h : s.run ≠ .running) : step s = .next s := by
  cases hrun : s.run with
  | running => exact absurd hrun h
  | awaitingKey r => exact step_waiting hrun
  | halted e => exact step_halted hrun

theorem run_eq_of_devices {s t : State} (h : UnchangedExcept devices s t) : t.run = s.run := by
  obtain ⟨-, -, -, -, -, -, -, -, -, hrun, -⟩ := h
  exact hrun (by simp [devices])

theorem perform_keepsRun {op : Operation} {s t u : State} (hop : KeepsRun s.run op) (hs : UnchangedExcept devices s t)
    (hu : perform op t = .next u) : UnchangedExcept devices s u := by
  rw [← run_eq_of_devices hs] at hop
  cases op with
  | reset font image => exact hop.elim
  | step =>
    cases (step_frozen hop).symm.trans hu
    exact hs
  | tick =>
    cases hu
    exact tick_unchangedExcept hs (by simp [devices]) (by simp [devices])
  | setKey k p =>
    obtain ⟨key, rfl⟩ := exists_key_of_perform_setKey hu
    rw [setKey_of_not_completing (hop.imp_right .inl)]
    exact hs.setKeys _ (by simp [devices])
  | observe =>
    cases hu
    exact hs

theorem performAll_keepsRun {ops : List Operation} {s t u : State} (hops : ∀ op ∈ ops, KeepsRun s.run op)
    (hs : UnchangedExcept devices s t) (hu : performAll ops t = .next u) : UnchangedExcept devices s u := by
  induction ops generalizing t with
  | nil =>
    cases hu
    exact hs
  | cons op ops ih =>
    obtain ⟨hop, hrest⟩ := List.forall_mem_cons.1 hops
    obtain ⟨v, hv, hu⟩ := performAll_cons_eq_next.1 hu
    exact ih hrest (perform_keepsRun hop hs hv) hu

/-- A frozen core stays in its run state, and everything but the devices stays as it is. -/
theorem run_eq_of_performAll {ops : List Operation} {s t : State} {r : RunState} (hrun : s.run = r)
    (hops : ∀ op ∈ ops, KeepsRun r op) (ht : performAll ops s = .next t) :
    t.run = r ∧ UnchangedExcept devices s t := by
  subst hrun
  have hframe := performAll_keepsRun hops (UnchangedExcept.refl _ s) ht
  exact ⟨run_eq_of_devices hframe, hframe⟩

theorem keepsRun_awaitingKey {op : Operation} (r : Reg) (h : KeepsWaiting op) : KeepsRun (.awaitingKey r) op := by
  rcases h with rfl | rfl | rfl | ⟨k, rfl⟩
  · exact RunState.noConfusion
  · trivial
  · trivial
  · exact .inr rfl

theorem keepsRun_halted {op : Operation} (e : Error) (h : NotReset op) : KeepsRun (.halted e) op := by
  cases op with
  | reset font image => exact h font image rfl
  | step => exact RunState.noConfusion
  | tick | observe => trivial
  | setKey k p => exact .inl fun _ => RunState.noConfusion

/-- Settles O48: a step, a tick, an observation and a release each leave a wait alone. -/
theorem keyWaitLasts : Obligations.KeyWaitLasts := fun _ _ _ r hops hrun ht =>
  run_eq_of_performAll hrun (fun op hop => keepsRun_awaitingKey r (hops op hop)) ht

/-- Settles O58: each operation but `Reset` leaves a halted core halted. -/
theorem haltedUntilReset : Obligations.HaltedUntilReset := fun _ _ _ e hops hrun ht =>
  run_eq_of_performAll hrun (fun op hop => keepsRun_halted e (hops op hop)) ht

end Sys2Proof.Machine
end

section
/-! SUPPORT. Errors (60_exceptions.md): an instruction raises the error of the table of R140 or it raises none; a running
step raises in fetch, in decode or in execute, in that order (R142); what is left behind and what is reported. -/

namespace Sys2Proof.Machine

open Sys2Proof.Spec (UnchangedExcept executeError)

/-! ### Execute -/

/-- An instruction to which the table gives an error raises it, in the state it began in. -/
theorem exec_of_executeError {i : Instr} {s : State} {e : Error} (h : executeError i s = some e) :
    exec i s = raise e s := by
  cases i with
  | ret =>
    obtain ⟨hempty, ⟨⟩⟩ := Option.ite_none_right_eq_some.1 h
    exact exec_ret_of_nil (List.eq_nil_of_length_eq_zero hempty)
  | call nnn =>
    obtain ⟨hfull, ⟨⟩⟩ := Option.ite_none_right_eq_some.1 h
    exact exec_call_of_full nnn hfull
  | drw x y n =>
    obtain ⟨⟨hn, hbeyond⟩, ⟨⟩⟩ := Option.ite_none_right_eq_some.1 h
    exact exec_drw_of_beyond x y hn hbeyond
  | bcd x =>
    obtain ⟨hbeyond, ⟨⟩⟩ := Option.ite_none_right_eq_some.1 h
    exact exec_bcd_of_beyond x hbeyond
  | stM x =>
    obtain ⟨hbeyond, ⟨⟩⟩ := Option.ite_none_right_eq_some.1 h
    exact exec_stM_of_beyond hbeyond
  | ldM x =>
    obtain ⟨hbeyond, ⟨⟩⟩ := Option.ite_none_right_eq_some.1 h
    exact exec_ldM_of_beyond hbeyond
  -- the table gives no error to the rest
  | _ => cases h

/-- The outcome is a next state in which no error has been raised: `run` is as in `s`, or a wait has begun. -/
def RaisesNothing (s : State) (o : Outcome) : Prop :=
  ∃ t, o = .next t ∧ (t.run = s.run ∨ ∃ x, t.run = .awaitingKey x)

theorem raisesNothing_next {s t : State} (h : t.run = s.run) : RaisesNothing s (.next t) := ⟨t, rfl, .inl h⟩

theorem State.skipIf_run (s : State) (c : Bool) : (s.skipIf c).run = s.run := by
  rw [State.skipIf_eq, State.setPc_run]

/-- An instruction to which the table gives no error raises none. -/
theorem exec_of_no_executeError {i : Instr} {s : State} (h : executeError i s = none) :
    RaisesNothing s (exec i s) := by
  cases i with
  | ret =>
    have hsome : ¬ s.stack.length = 0 := by simpa [executeError] using h
    obtain hnil | ⟨l, a, hl⟩ := List.eq_nil_or_concat' s.stack
    · exact absurd (congrArg List.length hnil) hsome
    · rw [exec_ret_of_concat hl]
      exact raisesNothing_next rfl
  | call nnn =>
    have hroom : s.stack.length < 16 := by simpa [executeError] using h
    rw [exec_call_of_room nnn hroom]
    exact raisesNothing_next rfl
  | drw x y n =>
    have hfits : 1 ≤ n.toNat → s.i.toNat + n.toNat - 1 ≤ 0xFFF := by
      simpa only [executeError, ite_eq_right_iff, reduceCtorEq, imp_false, not_and, Nat.not_lt] using h
    rw [exec_drw_of_fits x y (by omega)]
    exact raisesNothing_next rfl
  | bcd x =>
    have hfits : s.i.toNat + 2 ≤ 0xFFF := by simpa [executeError] using h
    rw [exec_bcd_of_fits x hfits]
    exact raisesNothing_next rfl
  | stM x =>
    have hfits : s.i.toNat + x.val ≤ 0xFFF := by simpa [executeError] using h
    rw [exec_stM_of_fits hfits]
    exact raisesNothing_next rfl
  | ldM x =>
    have hfits : s.i.toNat + x.val ≤ 0xFFF := by simpa [executeError] using h
    rw [exec_ldM_of_fits hfits]
    exact raisesNothing_next rfl
  | ldKey x => exact ⟨_, rfl, .inr ⟨x, rfl⟩⟩
  | seI | sneI | seR | sneR | skp | sknp => exact raisesNothing_next (s.skipIf_run _)
  -- the rest gives one next state and does not write `run`
  | cls | jp | ldI | addI | ldR | orR | andR | xorR | addR | sub | shr | subn | shl | ldA | jpV0 | rnd | ldGdt | ldSdt
  | ldSst | addA | ldFnt => exact raisesNothing_next rfl

theorem exec_gives_next (i : Instr) (s : State) : ∃ t, exec i s = .next t := by
  cases h : executeError i s with
  | some e => exact ⟨_, exec_of_executeError h⟩
  | none =>
    obtain ⟨t, ht, -⟩ := exec_of_no_executeError h
    exact ⟨t, ht⟩

section
variable {i : Instr} {s t : State} {e : Error}

/-- An instruction ends a running core halted exactly by the error that the table gives it. -/
theorem exec_halts_iff (hrun : s.run = .running) (ht : exec i s = .next t) :
    t.run = .halted e ↔ executeError i s = some e := by
  cases h : executeError i s with
  | some e' =>
    cases (exec_of_executeError h).symm.trans ht
    simp
  | none =>
    obtain ⟨t', ht', hrun'⟩ := exec_of_no_executeError h
    cases ht'.symm.trans ht
    obtain hkept | ⟨x, hwait⟩ := hrun'
    · simp [hkept, hrun]
    · simp [hwait]

/-- The state that an instruction ends a running core halted in is the one it began in, halted. -/
theorem exec_halted_eq (hrun : s.run = .running) (ht : exec i s = .next t) (he : t.run = .halted e) :
    t = s.setRun (.halted e) := by
  cases (exec_of_executeError ((exec_halts_iff hrun ht).1 he)).symm.trans ht
  rfl

end

/-! ### Step -/

/-- All that a running step can do: raise in fetch, raise in decode, or execute what was fetched and decoded. -/
theorem step_running_cases {s : State} (hrun : s.run = .running) :
    (0xFFE < s.pc.toNat ∧ step s = raise .addressOutOfRange s) ∨
    (s.pc.toNat ≤ 0xFFE ∧ ∃ reason,
      decodeWord (wordOfBytes (s.readByte s.pc.toNat) (s.readByte (s.pc.toNat + 1))) = .error reason ∧
      step s = raise .invalidOpcode (s.setPc (s.pc + 2))) ∨
    (s.pc.toNat ≤ 0xFFE ∧ ∃ i,
      decodeWord (wordOfBytes (s.readByte s.pc.toNat) (s.readByte (s.pc.toNat + 1))) = .ok i ∧
      step s = exec i (s.setPc (s.pc + 2))) := by
  rcases Nat.lt_or_ge 0xFFE s.pc.toNat with hout | hin
  · exact .inl ⟨hout, step_fetch_error hrun hout⟩
  · cases hdecode : decodeWord (wordOfBytes (s.readByte s.pc.toNat) (s.readByte (s.pc.toNat + 1))) with
    | error reason => exact .inr (.inl ⟨hin, reason, rfl, step_of_invalid hrun hin hdecode⟩)
    | ok i => exact .inr (.inr ⟨hin, i, rfl, stepRunsDecodedInstruction s i hrun hin hdecode⟩)

theorem step_gives_next (s : State) : ∃ t, step s = .next t := by
  by_cases hrun : s.run = .running
  · obtain ⟨-, hstep⟩ | ⟨-, -, -, hstep⟩ | ⟨-, i, -, hstep⟩ := step_running_cases hrun
    · exact ⟨_, hstep⟩
    · exact ⟨_, hstep⟩
    · rw [hstep]
      exact exec_gives_next i _
  · exact ⟨s, step_frozen hrun⟩

/-- Settles O15: an instruction raises its error or gives the state it has computed, and both are next states. -/
theorem everyStepGivesNextState : Obligations.EveryStepGivesNextState := ⟨exec_gives_next, step_gives_next⟩

/-- The state that a running step ends halted in is the one it began in, halted, with or without the fetch's advance. -/
theorem step_halted_eq {s t : State} {e : Error} (hrun : s.run = .running) (ht : step s = .next t)
    (he : t.run = .halted e) : ∃ pc, (pc = s.pc ∨ pc = s.pc + 2) ∧ t = (s.setPc pc).setRun (.halted e) := by
  obtain ⟨-, hstep⟩ | ⟨-, -, -, hstep⟩ | ⟨-, i, -, hstep⟩ := step_running_cases hrun
  · cases hstep.symm.trans ht
    cases he
    exact ⟨s.pc, .inl rfl, rfl⟩
  · cases hstep.symm.trans ht
    cases he
    exact ⟨s.pc + 2, .inr rfl, rfl⟩
  · exact ⟨s.pc + 2, .inr rfl, exec_halted_eq hrun (hstep.symm.trans ht) he⟩

/-- Settles O56: the errors of execute are those of the table, and a step reaches decode only past fetch and execute only
past decode. -/
theorem errorsAreTheTable : Obligations.ErrorsAreTheTable := by
  refine ⟨fun i s t e hrun ht => ⟨exec_halts_iff hrun ht, fun he => ?_⟩, fun s t e hrun ht => ?_,
    rfl, rfl, rfl, rfl, rfl⟩
  · rw [exec_halted_eq hrun ht he]
    exact (UnchangedExcept.refl _ s).setRun _ (by simp)
  · obtain ⟨hout, hstep⟩ | ⟨hin, reason, hdecode, hstep⟩ | ⟨hin, i, hdecode, hstep⟩ := step_running_cases hrun
    · cases hstep.symm.trans ht
      simp [hout, Nat.not_le.2 hout, eq_comm]
    · cases hstep.symm.trans ht
      simp [hin, Nat.not_lt.2 hin, hdecode, eq_comm]
    · rw [exec_halts_iff (s := s.setPc (s.pc + 2)) hrun (hstep.symm.trans ht)]
      simp [hin, Nat.not_lt.2 hin, hdecode]

/-! ### Precision and report -/

/-- A SetKey of a core that has not halted does not halt it. -/
theorem run_halted_of_setKey {k : Key} {p : Bool} {s : State} {e : Error} (h : (setKey k p s).run = .halted e) :
    s.run = .halted e := by
  rcases setKey_cases k p s with ⟨r, hwait, rfl, hup⟩ | hnot
  · rw [setKey_of_completing hwait hup] at h
    cases h
  · rwa [setKey_of_not_completing hnot] at h

/-- Settles O55: an error is raised before anything else is written, and the external events write `run` only to end a
wait. -/
theorem errorsArePrecise : Obligations.ErrorsArePrecise := by
  refine ⟨fun s t e hrun ht he => ?_, fun s t e op hop ht he => ?_⟩
  · obtain ⟨pc, hpc, rfl⟩ := step_halted_eq hrun ht he
    exact ⟨((UnchangedExcept.refl _ s).setPc _ (by simp)).setRun _ (by simp), hpc⟩
  · obtain rfl | rfl | ⟨k, p, rfl⟩ := hop
    · cases ht
      exact he
    · cases ht
      exact he
    · obtain ⟨key, rfl⟩ := exists_key_of_perform_setKey ht
      exact run_halted_of_setKey he

/-- Settles O57: a raise is one write of `run`, and the report of a step or of a `Reset` names the error it ends with. -/
theorem errorEntryIsReported : Obligations.ErrorEntryIsReported := by
  refine ⟨fun e s => ⟨_, raise_eq e s, rfl, (UnchangedExcept.refl _ s).setRun _ (by simp)⟩,
    fun op s t e hop ht he => ?_⟩
  refine ⟨.error e, ?_, rfl, rfl⟩
  obtain ⟨rfl, hrun⟩ | ⟨font, image, rfl⟩ := hop
  · exact (stepReport_next ht).trans (by rw [hrun, he, reportOf_raised])
  · cases ht
    cases hfits : imageFits image with
    | true =>
      rw [resetTo_fits font s hfits] at he
      cases he
    | false =>
      rw [resetTo_too_large font s hfits] at he
      cases he
      exact resetReport_eq_some.2 ⟨hfits, rfl⟩

end Sys2Proof.Machine
end

section
/-! SUPPORT. Words written out from the encodings, and the two jumps that remain: BNNN, and a jump to its own address. -/

namespace Sys2Proof.Machine

open Sys2Proof.Spec (UnchangedExcept)

/-- Settles O1: the decoder computes each of the seventeen answers. -/
theorem decodesWordsOfTheSpec : Obligations.DecodesWordsOfTheSpec := by
  unfold Obligations.DecodesWordsOfTheSpec
  decide

/-- The sum of a 12-bit address and a byte does not wrap in 16 bits (41_control_flow.md R87). -/
theorem State.indexedTarget_toNat (s : State) (nnn : Addr) :
    (s.indexedTarget nnn).toNat = nnn.toNat + (s.getV indexReg).toNat := by
  simp only [State.indexedTarget, BitVec.toNat_add, extendAddr_toNat, BitVec.toNat_setWidth]
  omega

/-- Settles O17: the jump is one write of `pc`. -/
theorem indexedJumpAddsV0 : Obligations.IndexedJumpAddsV0 := fun nnn s =>
  ⟨_, rfl, s.indexedTarget_toNat nnn, (UnchangedExcept.refl _ s).setPc _ (by simp)⟩

/-- Settles O60: the jump overwrites the fetch's advance with the `pc` that the step began at. -/
theorem selfJumpIsAFixedPoint : Obligations.SelfJumpIsAFixedPoint := by
  intro s nnn hrun hself hin hbytes
  have htarget : extendAddr nnn = s.pc := BitVec.eq_of_toNat_eq ((extendAddr_toNat nnn).trans hself.symm)
  rw [step_of_encoded hrun hin hbytes, exec, execJp, htarget]
  rfl

end Sys2Proof.Machine
end
